-- ==== Sys2Proof/Word.lean ====
section
/-! DEFINITION. The plain data the whole model speaks of: bytes and text, the three-valued `Tri`
(00_scope.md R11, R12), a capacity that may be infinite (R8), and the input pins of one clock cycle
(92_eei_decisions.md D2). A sample is a word of `SAMPLE_WIDTH` bits, bit `i` of weight `2^i` (R10,
R58); the width is a parameter of the instance, so the word is a `Nat`, well formed below
`2^SAMPLE_WIDTH` (log entry 14). -/
namespace Sys2Proof

/-- One character of output, its 7-bit ASCII code in one byte (42_output_and_host.md R117). -/
abbrev Byte := BitVec 8

/-- Output text: the bytes in the order written (20_memory.md R47). -/
abbrev Text := List Byte

/-- The three values of 00_scope.md R11: unknown, false, true. -/
inductive Tri where
  | u
  | f
  | t
deriving DecidableEq, Repr

/-- A bound that may be `INF` (00_scope.md R8). -/
inductive Limit where
  | inf
  | finite (n : Nat)
deriving DecidableEq, Repr

/-- Whether a number is within the bound. -/
def Limit.allows : Limit → Nat → Bool
  | .inf, _ => true
  | .finite n, k => decide (k ≤ n)

/-- The input pins during one clock cycle (92_eei_decisions.md D2; 30_encoding.md R64). -/
structure Pins where
  rst : Bool
  intr : Bool
  sEnd : Bool
  sValid : Bool
  sData : Nat
  lReady : Bool
deriving DecidableEq, Repr

end Sys2Proof
end

