-- ==== Sys2Proof/Config.lean ====
section
/-! DEFINITION. The implementation parameters of 00_scope.md R8. Those a step reads are the fields
of `Config`; those that only rendering reads are `Config.samplePeriod` here and the argument `fmt6`
of Machine/Render.lean. -/
namespace Sys2Proof

/-- The parameters a step or a port reads (00_scope.md R8). A state carries them, and no step
writes them (R3, R29: "no reconfiguration at runtime"; log entry 1). -/
structure Config where
  /-- `SAMPLE_WIDTH`, at least 8. -/
  sampleWidth : Nat
  /-- `SL_MAX`, at least 1, or `INF`. -/
  slMax : Limit
  /-- `BITS_CAP`, at least 1, or `INF`. -/
  bitsCap : Limit
  /-- `CW`, the width of the `l_count` port field. -/
  cw : Nat
deriving DecidableEq, Repr

/-- The reference configuration (00_scope.md R8, R9). `CW` is meaningless when a bound is `INF`
(R8); DESIGN CHOICE 0 (safe, log entry 16). -/
def Config.reference : Config :=
  { sampleWidth := 8, slMax := .inf, bitsCap := .inf, cw := 0 }

/-- `SAMPLE_PERIOD` of the instance, in seconds: a rational at least 0 that R8 leaves OPEN with no
default. A free value: it has no body, so no proof can see it (log entry 10). -/
opaque Config.samplePeriod : ℚ≥0

end Sys2Proof
end

