-- ==== Sys2Proof/Machine/State.lean ====
section
/-! DEFINITION. The state of the block (10_state.md), as plain data: the decoder record `s` of R21
with the ghost counter `n` (R30), the cycle-level output queue (R38), the parameters (00_scope.md
R8), and the model's two interface lists. Also the state after RESET and the reason types. -/
namespace Sys2Proof.Machine

/-- `run` (10_state.md R27). -/
inductive RunState where
  | run
  | haltOk
  | haltErr
  | haltFault
deriving DecidableEq, Repr

/-- `fault_cause` (10_state.md R28). -/
inductive FaultCause where
  | none
  | accOverflow
deriving DecidableEq, Repr

/-- The channel letter of a `Data` line (41_accumulator.md R105). -/
inductive Channel where
  | c
  | d
deriving DecidableEq, Repr

/-- A line record (42_output_and_host.md R116). -/
inductive Line where
  | banner
  | blank
  | start (k : Nat)
  | data (p : Channel) (gs : List (List Bool))
  | final
deriving DecidableEq, Repr

/-- The record `s` of 10_state.md R21, with the ghost counter `n` of R30 (40_framing.md R73). -/
structure Decoder where
  /-- `since_last` (R22). -/
  sinceLast : Nat
  /-- `last_p2` (R23). -/
  lastP2 : Tri
  /-- `last_sync` (R24). -/
  lastSync : Tri
  /-- `in_command` (R25). -/
  inCommand : Bool
  /-- `bits` (R26), first-arrived first; the hardware's `acc[0 .. acc_len-1]` (R35). -/
  bits : List Bool
  /-- `run` (R27). -/
  run : RunState
  /-- `fault_cause` (R28). -/
  faultCause : FaultCause
  /-- The ghost counter `n` (R30). -/
  n : Nat
deriving DecidableEq, Repr

/-- The state of the machine. -/
structure State where
  /-- The parameters of the instance (00_scope.md R8), which no step writes (log entry 1). -/
  cfg : Config
  /-- The decoder record (10_state.md R21). -/
  dec : Decoder
  /-- The output queue (10_state.md R38), its head first. -/
  outq : List Line
  /-- The MODEL's own: the pins of the cycles to come, the next one first (log entry 2). -/
  feed : List Pins
  /-- The MODEL's own: the lines the sink has taken, oldest first (log entry 3). -/
  delivered : List Line
deriving DecidableEq, Repr

/-- The initial state (70_reset_and_hazards.md R151). -/
def Decoder.initial : Decoder :=
  { sinceLast := 0
    lastP2 := .u
    lastSync := .u
    inCommand := false
    bits := []
    run := .run
    faultCause := .none
    n := 0 }

/-- The machine right after RESET (70_reset_and_hazards.md R151) at the reference configuration
(00_scope.md R9). Nothing is on its pins yet and the sink has taken nothing (DESIGN CHOICE, log
entries 2 and 3). -/
def State.reset : State :=
  { cfg := Config.reference
    dec := Decoder.initial
    outq := [.banner]
    feed := []
    delivered := [] }

/-- Reasons for a step to stop with a fault: there are none. The block's one fault, `ACC_OVERFLOW`
(60_exceptions.md R134), has an entry the spec describes, so it is a next state with
`run = HALT_FAULT` (log entry 17; safe). -/
inductive Fault where
deriving DecidableEq, Repr

/-- Reasons for a step to be refused. -/
inductive Refusal where
  /-- Raised by an arm of `exec` whose instruction has no meaning yet; safe. No arm raises it. -/
  | notModelled (mnemonic : String)
deriving DecidableEq, Repr

end Sys2Proof.Machine
end

