-- ==== Sys2Proof/Machine/Group.lean ====
section
/-! DEFINITION. The grouping of a flushed bit sequence (41_accumulator.md R107 to R110). -/
namespace Sys2Proof.Machine

/-- The groups after the header (41_accumulator.md R109, R110): 8 bits from the front while 8 or more
remain, then what remains, if anything. The first argument bounds the number of full groups. -/
def peelGroups : Nat → List Bool → List (List Bool)
  | 0, rest => if rest = [] then [] else [rest]
  | k + 1, rest =>
    if 8 ≤ rest.length then rest.take 8 :: peelGroups k (rest.drop 8)
    else if rest = [] then [] else [rest]

/-- `group(bs)` (41_accumulator.md R107): a 2-bit header exactly when the length is 2 modulo 8, then
full groups, then a ragged group. -/
def group (bs : List Bool) : List (List Bool) :=
  if bs.length % 8 = 2 then bs.take 2 :: peelGroups bs.length (bs.drop 2)
  else peelGroups bs.length bs

end Sys2Proof.Machine
end

