-- ==== Sys2Proof/Syntax.lean ====
section
/-! DEFINITION. The syntax: one constructor for each row of spec/opcode_table.json. The ten SMP8
operations carry the one signal their row names (30_encoding.md R67); the five CTL4 events carry
nothing, except SAMPLE, which carries the word on `s_data` (R65). -/
namespace Sys2Proof

inductive Instr where
  | pwoLowIdle (p2 : Bool)
  | pwoLowEnd (p2 : Bool)
  | strobeLow
  | strobeHeld
  | startC (isa : Bool)
  | startD (iwa : Bool)
  | bitC (isa : Bool)
  | bitD (iwa : Bool)
  | switchC (isa : Bool)
  | switchD (iwa : Bool)
  | reset
  | interrupt
  | sourceEnd
  | sample (smp : Nat)
  | idle
deriving DecidableEq, Repr

end Sys2Proof
end

