-- ==== Sys2Proof/WellFormed.lean ====
section
/-! DEFINITION. The checks on plain data: the ranges of the parameters (00_scope.md R8) and the
width of a sample (30_encoding.md R58). -/
namespace Sys2Proof

/-- A bound of R8 is "natural at least 1, or `INF`". -/
def Limit.positive : Limit → Bool
  | .inf => true
  | .finite n => decide (1 ≤ n)

/-- `CW` is "at least the bit length of `max(SL_MAX, BITS_CAP)`; meaningless when either is `INF`". -/
def Config.countFits (c : Config) : Bool :=
  match c.slMax, c.bitsCap with
  | .finite a, .finite b => decide (max a b < 2 ^ c.cw)
  | _, _ => true

/-- The parameters are in the ranges of 00_scope.md R8. -/
def Config.wf (c : Config) : Bool :=
  decide (8 ≤ c.sampleWidth) && c.slMax.positive && c.bitsCap.positive && c.countFits

/-- A sample is a word of `SAMPLE_WIDTH` bits (30_encoding.md R58). -/
def sampleFits (c : Config) (smp : Nat) : Bool := decide (smp < 2 ^ c.sampleWidth)

/-- Well-formed syntax: only SAMPLE carries an operand that could be out of range. -/
def Instr.wf (c : Config) : Instr → Bool
  | .pwoLowIdle _ => true
  | .pwoLowEnd _ => true
  | .strobeLow => true
  | .strobeHeld => true
  | .startC _ => true
  | .startD _ => true
  | .bitC _ => true
  | .bitD _ => true
  | .switchC _ => true
  | .switchD _ => true
  | .reset => true
  | .interrupt => true
  | .sourceEnd => true
  | .sample smp => sampleFits c smp
  | .idle => true

/-- The data pins carry `SAMPLE_WIDTH` bits. -/
def Pins.wf (c : Config) (p : Pins) : Bool := sampleFits c p.sData

end Sys2Proof
end

