-- ==== Sys2Proof/Decode.lean ====
section
/-! DEFINITION. The decoder and the encoder (30_encoding.md): the signals of a sample, the operation
a sample selects in a state, the event the pins select, the tables of R65 and R67 as data, a
decoder of numbered words that rejects by name, and the canonical encodings of R62. -/
namespace Sys2Proof

/-! ### The sample format -/

/-- The five Booleans of SignalState (30_encoding.md R59). -/
structure Signals where
  pwo : Bool
  p2 : Bool
  sync : Bool
  isa : Bool
  iwa : Bool
deriving DecidableEq, Repr

/-- SignalState extraction (30_encoding.md R59): bits 5, 4, 7, 2 and 1 of the sample. -/
def extract (smp : Nat) : Signals :=
  { pwo := smp.testBit 5
    p2 := smp.testBit 4
    sync := smp.testBit 7
    isa := smp.testBit 2
    iwa := smp.testBit 1 }

/-- The canonical sample of a combination of signals, every unused bit 0 (30_encoding.md R62). -/
def canon (sg : Signals) : Nat :=
  0x80 * sg.sync.toNat + 0x20 * sg.pwo.toNat + 0x10 * sg.p2.toNat
    + 0x04 * sg.isa.toNat + 0x02 * sg.iwa.toNat

/-! ### The operation a sample selects -/

/-- What `decode_op` reads of the decoder state (30_encoding.md R66). -/
structure View where
  inCommand : Bool
  lastP2 : Tri
  lastSync : Tri
deriving DecidableEq, Repr

/-- The view of the state after RESET (70_reset_and_hazards.md R151). -/
def View.atReset : View := { inCommand := false, lastP2 := .u, lastSync := .u }

/-- `tri(b)` of 00_scope.md R12. -/
def tri (b : Bool) : Tri := if b then .t else .f

/-- `decode_op` of 30_encoding.md R66, in the order of its tests. -/
def decodeOp (v : View) (smp : Nat) : Instr :=
  let sg := extract smp
  if !sg.pwo then
    if v.inCommand then .pwoLowEnd sg.p2 else .pwoLowIdle sg.p2
  else if !sg.p2 then .strobeLow
  else if v.lastP2 = .t then .strobeHeld
  else if !v.inCommand then
    if sg.sync then .startC sg.isa else .startD sg.iwa
  else if v.lastSync = tri sg.sync then
    if sg.sync then .bitC sg.isa else .bitD sg.iwa
  else if sg.sync then .switchC sg.isa else .switchD sg.iwa

/-- The state condition of an operation's row (30_encoding.md R67); an event has none. -/
def Instr.selectable (v : View) : Instr → Bool
  | .pwoLowIdle _ => !v.inCommand
  | .pwoLowEnd _ => v.inCommand
  | .strobeLow => true
  | .strobeHeld => decide (v.lastP2 = .t)
  | .startC _ => decide (v.lastP2 ≠ .t) && !v.inCommand
  | .startD _ => decide (v.lastP2 ≠ .t) && !v.inCommand
  | .bitC _ => decide (v.lastP2 ≠ .t) && v.inCommand && decide (v.lastSync = .t)
  | .bitD _ => decide (v.lastP2 ≠ .t) && v.inCommand && decide (v.lastSync = .f)
  | .switchC _ => decide (v.lastP2 ≠ .t) && v.inCommand && decide (v.lastSync ≠ .t)
  | .switchD _ => decide (v.lastP2 ≠ .t) && v.inCommand && decide (v.lastSync ≠ .f)
  | .reset => true
  | .interrupt => true
  | .sourceEnd => true
  | .sample _ => true
  | .idle => true

/-- One row of the table of 30_encoding.md R67: the sample bits that select the operation, and the
operation with the signal its row names. The row's state condition is `Instr.selectable`. -/
structure OpRow where
  mask : Nat
  pat : Nat
  op : Signals → Instr

/-- The ten rows of 30_encoding.md R67 and of spec/opcode_table.json (format SMP8). -/
def opTable : List OpRow :=
  [ { mask := 0x20, pat := 0x00, op := fun sg => .pwoLowIdle sg.p2 },
    { mask := 0x20, pat := 0x00, op := fun sg => .pwoLowEnd sg.p2 },
    { mask := 0x30, pat := 0x20, op := fun _ => .strobeLow },
    { mask := 0x30, pat := 0x30, op := fun _ => .strobeHeld },
    { mask := 0xB0, pat := 0xB0, op := fun sg => .startC sg.isa },
    { mask := 0xB0, pat := 0x30, op := fun sg => .startD sg.iwa },
    { mask := 0xB0, pat := 0xB0, op := fun sg => .bitC sg.isa },
    { mask := 0xB0, pat := 0x30, op := fun sg => .bitD sg.iwa },
    { mask := 0xB0, pat := 0xB0, op := fun sg => .switchC sg.isa },
    { mask := 0xB0, pat := 0x30, op := fun sg => .switchD sg.iwa } ]

/-- Whether a row of R67 applies to a sample in a state. -/
def OpRow.applies (v : View) (smp : Nat) (r : OpRow) : Bool :=
  decide (smp &&& r.mask = r.pat) && (r.op (extract smp)).selectable v

/-! ### The event the pins select -/

/-- The event of a cycle in which the block takes one (30_encoding.md R65): RESET, then INTERRUPT,
then SOURCE_END, then a sample, else none. -/
def decodeCtl (p : Pins) : Instr :=
  if p.rst then .reset
  else if p.intr then .interrupt
  else if p.sEnd then .sourceEnd
  else if p.sValid then .sample p.sData
  else .idle

/-- The CTL4 vector `{rst, intr, s_end, s_valid}`, bit 3 down to bit 0 (30_encoding.md R64). -/
def ctlWord (p : Pins) : Nat :=
  8 * p.rst.toNat + 4 * p.intr.toNat + 2 * p.sEnd.toNat + p.sValid.toNat

/-- One CTL4 row of spec/opcode_table.json. -/
structure CtlRow where
  mask : Nat
  pat : Nat
  event : Nat → Instr

/-- The five CTL4 rows of spec/opcode_table.json. -/
def ctlTable : List CtlRow :=
  [ { mask := 0x8, pat := 0x8, event := fun _ => .reset },
    { mask := 0xC, pat := 0x4, event := fun _ => .interrupt },
    { mask := 0xE, pat := 0x2, event := fun _ => .sourceEnd },
    { mask := 0xF, pat := 0x1, event := fun smp => .sample smp },
    { mask := 0xF, pat := 0x0, event := fun _ => .idle } ]

/-! ### Numbered words -/

/-- The two formats of spec/opcode_table.json. -/
inductive Format where
  | smp8
  | ctl4
deriving DecidableEq, Repr

/-- Why a numbered word is no input of the block. Every word of the port's width is one
(30_encoding.md R61, R69). -/
inductive Reject where
  /-- The sample has a bit at or above `SAMPLE_WIDTH` (R58). -/
  | sampleTooWide
  /-- The data word above the CTL4 bits has a bit at or above `SAMPLE_WIDTH` (R58). -/
  | dataTooWide
deriving DecidableEq, Repr

/-- The pins a numbered word stands for: a SMP8 word is a sample offered alone; a CTL4 word has its
four bits lowest and the `s_data` word above them (DESIGN CHOICE, safe, log entry 5). -/
def pinsOfWord : Format → Nat → Pins
  | .smp8, w =>
    { rst := false, intr := false, sEnd := false, sValid := true, sData := w, lReady := false }
  | .ctl4, w =>
    { rst := w.testBit 3, intr := w.testBit 2, sEnd := w.testBit 1, sValid := w.testBit 0,
      sData := w / 16, lReady := false }

/-- The decoder of numbered words: total, and a word wider than the port is rejected by name. -/
def decode (c : Config) (v : View) (fmt : Format) (w : Nat) : Except Reject Instr :=
  match fmt with
  | .smp8 => if sampleFits c w then .ok (decodeOp v w) else .error .sampleTooWide
  | .ctl4 => if sampleFits c (w / 16) then .ok (decodeCtl (pinsOfWord .ctl4 w)) else .error .dataTooWide

/-- Pins with nothing on `s_data` but the four event inputs given. -/
def eventPins (rst intr sEnd sValid : Bool) (smp : Nat) : Pins :=
  { rst := rst, intr := intr, sEnd := sEnd, sValid := sValid, sData := smp, lReady := false }

/-- The signals of an operation's canonical sample: the pattern of its row (30_encoding.md R67) and
the signal it carries, every other bit 0 (R62). -/
def opSignals (pwo p2 sync isa iwa : Bool) : Signals :=
  { pwo := pwo, p2 := p2, sync := sync, isa := isa, iwa := iwa }

/-- The encoder: the canonical sample of an operation (30_encoding.md R62), or the CTL4 vector of an
event with its row's don't-care bits 0, the sample of SAMPLE standing above it. -/
def encode : Instr → Format × Nat
  | .pwoLowIdle p2 => (.smp8, canon (opSignals false p2 false false false))
  | .pwoLowEnd p2 => (.smp8, canon (opSignals false p2 false false false))
  | .strobeLow => (.smp8, canon (opSignals true false false false false))
  | .strobeHeld => (.smp8, canon (opSignals true true false false false))
  | .startC isa => (.smp8, canon (opSignals true true true isa false))
  | .startD iwa => (.smp8, canon (opSignals true true false false iwa))
  | .bitC isa => (.smp8, canon (opSignals true true true isa false))
  | .bitD iwa => (.smp8, canon (opSignals true true false false iwa))
  | .switchC isa => (.smp8, canon (opSignals true true true isa false))
  | .switchD iwa => (.smp8, canon (opSignals true true false false iwa))
  | .reset => (.ctl4, ctlWord (eventPins true false false false 0))
  | .interrupt => (.ctl4, ctlWord (eventPins false true false false 0))
  | .sourceEnd => (.ctl4, ctlWord (eventPins false false true false 0))
  | .sample smp => (.ctl4, ctlWord (eventPins false false false true smp) + 16 * smp)
  | .idle => (.ctl4, ctlWord (eventPins false false false false 0))

/-! ### The host's word -/

/-- Which format a word of the host's is read in. The table numbers two formats over the same low
bits: a word the host gives fewer than 8 bits is CTL4, and so is one whose only bits are among the
low four (as a sample it would be `pwo`-low, like 0x00); every other word is a sample
(DESIGN CHOICE, safe: no step reads this, log entry 5). -/
def tableFormat (nbits w : Nat) : Format :=
  if nbits < 8 ∨ (0 < w ∧ w < 16) then .ctl4 else .smp8

/-- The instruction the decoder reads from a word numbered as spec/opcode_table.json numbers it, in
the state after RESET: which SMP8 row a sample means depends on the state (30_encoding.md R66). -/
def decodeTableWord (nbits w : Nat) : Option Instr :=
  match decode { Config.reference with sampleWidth := max 8 nbits } .atReset (tableFormat nbits w) w with
  | .ok i => some i
  | .error _ => none

end Sys2Proof
end

