-- ==== Sys2Proof/Machine/Flags.lean ====
section
/-! DEFINITION. The flag computations: the view the decoder reads (30_encoding.md R66), the edge
detector (40_framing.md R77), the channel comparator (R78), and the saturating count (R81). -/
namespace Sys2Proof.Machine

/-- What `decode_op` reads of a decoder state (30_encoding.md R66). -/
def Decoder.view (d : Decoder) : View :=
  { inCommand := d.inCommand, lastP2 := d.lastP2, lastSync := d.lastSync }

/-- The edge detector (40_framing.md R77): `p2` is true and `last_p2` is not `T`. -/
def edge (p2 : Bool) (lastP2 : Tri) : Bool := p2 && decide (lastP2 ≠ .t)

/-- The channel comparator (40_framing.md R78): `last_sync` is not `tri(sync)`. -/
def switched (lastSync : Tri) (sync : Bool) : Bool := decide (lastSync ≠ tri sync)

/-- `sat(v)` (40_framing.md R81): the smaller of `v` and `SL_MAX`. -/
def sat (cfg : Config) (v : Nat) : Nat :=
  match cfg.slMax with
  | .inf => v
  | .finite m => min v m

/-- Whether the accumulator already holds `BITS_CAP` bits (40_framing.md R80). -/
def full (cfg : Config) (bits : List Bool) : Bool :=
  match cfg.bitsCap with
  | .inf => false
  | .finite n => decide (bits.length = n)

end Sys2Proof.Machine
end

