-- ==== Sys2Proof/Machine/Operands.lean ====
section
/-! DEFINITION. The assembled operands of 30_encoding.md R63: the accepted bit (40_framing.md R79),
the elapsed count of a `Start` line, and the letter of a flushed line (41_accumulator.md R105). -/
namespace Sys2Proof.Machine

/-- The multiplexed-channel selector (40_framing.md R79): `isa` if `sync`, otherwise `iwa`. -/
def selectedBit (sg : Signals) : Bool := if sg.sync then sg.isa else sg.iwa

/-- The elapsed operand of a `Start` line (30_encoding.md R63): the count, not scaled. -/
def elapsed (d : Decoder) : Nat := d.sinceLast

/-- Prefix selection (41_accumulator.md R105): `C` if `last_sync` is `T`, otherwise `D`. -/
def lineChannel (lastSync : Tri) : Channel := if lastSync = .t then .c else .d

end Sys2Proof.Machine
end

