-- ==== Sys2Proof/Machine/Ops.lean ====
section
/-! DEFINITION. The shared operations. A step of the abstract machine works on the decoder record and
the list of lines emitted so far (40_framing.md R76: `s` and `out`), and its statements run in order
(00_scope.md R13). The block has no memory and no registers by number (10_state.md R31, 20_memory.md
R40). Taking the fault is `raiseFault`, a halt `haltDiscarding`; the only way back is RESET,
`Decoder.initial` (60_exceptions.md R142). -/
namespace Sys2Proof.Machine

/-- The record and the lines emitted so far in one step (40_framing.md R76). -/
structure Work where
  dec : Decoder
  out : List Line
deriving DecidableEq, Repr

/-- The start of a step: no line emitted yet. -/
def beginWork (d : Decoder) : Work := { dec := d, out := [] }

/-- `emit(l)` (00_scope.md R14). -/
def emit (l : Line) (w : Work) : Work := { w with out := w.out ++ [l] }

def setInCommand (b : Bool) (w : Work) : Work := { w with dec := { w.dec with inCommand := b } }
def setLastSync (v : Tri) (w : Work) : Work := { w with dec := { w.dec with lastSync := v } }
def setLastP2 (v : Tri) (w : Work) : Work := { w with dec := { w.dec with lastP2 := v } }
def setSinceLast (k : Nat) (w : Work) : Work := { w with dec := { w.dec with sinceLast := k } }
def setBits (bs : List Bool) (w : Work) : Work := { w with dec := { w.dec with bits := bs } }

/-- `flush(s)` (41_accumulator.md R104): one `Data` line if any bit is held; `bits` is emptied. -/
def flush (w : Work) : Work :=
  if w.dec.bits = [] then setBits [] w
  else setBits [] (emit (.data (lineChannel w.dec.lastSync) (group w.dec.bits)) w)

/-- `raise Fault(cause)` (00_scope.md R16): earlier writes and lines stay, `run` and `fault_cause`
are written, and the step ends. The one operation that takes an exception (60_exceptions.md R134). -/
def raiseFault (cause : FaultCause) (w : Work) : Work :=
  { w with dec := { w.dec with run := .haltFault, faultCause := cause } }

/-- `append(s, b)` (40_framing.md R80): `.error` is the state in which the raised fault ends the
step, `.ok` the state in which the step goes on. -/
def append (cfg : Config) (b : Bool) (w : Work) : Except Work Work :=
  if full cfg w.dec.bits then .error (raiseFault .accOverflow w)
  else .ok (setBits (w.dec.bits ++ [b]) w)

/-- The two last statements of every sample step (40_framing.md R81). -/
def finishSample (cfg : Config) (p2 : Bool) (w : Work) : Work :=
  let w := setLastP2 (tri p2) w
  setSinceLast (sat cfg (w.dec.sinceLast + 1)) w

/-- Accepting a bit, to the end of the step (40_framing.md R76, rules 2e, 2f and 3). -/
def acceptBit (cfg : Config) (p2 b : Bool) (w : Work) : Work :=
  match append cfg b w with
  | .error w => w
  | .ok w => finishSample cfg p2 (setSinceLast 0 w)

/-- The command start (40_framing.md R76, rule 2c): `Blank` then `Start`, and `last_sync` unknown. -/
def startCommand (w : Work) : Work :=
  let w := setInCommand true w
  let w := emit .blank w
  let w := emit (.start (elapsed w.dec)) w
  setLastSync .u w

/-- The channel switch (40_framing.md R76, rule 2d): a flush under the old `last_sync`, then the new
`last_sync`. -/
def enterChannel (sync : Bool) (w : Work) : Work := setLastSync (tri sync) (flush w)

/-- Entering a halt by INTERRUPT or SOURCE_END (60_exceptions.md R141): held bits are discarded, not
flushed, and `run` is written. -/
def haltDiscarding (r : RunState) (w : Work) : Work :=
  let w := setBits [] w
  { w with dec := { w.dec with run := r } }

/-- The ghost count of a SAMPLE step (10_state.md R30; 40_framing.md R74). -/
def countSample (d : Decoder) : Decoder := { d with n := d.n + 1 }

/-- What a step of the abstract machine leaves in the state: its record, and its lines behind those
already in the queue (10_state.md R38; 20_memory.md R52). -/
def absorb (s : State) (w : Work) : State := { s with dec := w.dec, outq := s.outq ++ w.out }

/-- A SAMPLE step of the state (40_framing.md R74, R75): ignored unless `run = RUN`, otherwise `n`
counts it and `f` is its effect on the record. -/
def onSample (s : State) (f : Work → Work) : Host.Outcome State Fault Refusal :=
  if s.dec.run = .run then .next (absorb s (f (beginWork (countSample s.dec)))) else .next s

end Sys2Proof.Machine
end

