-- ==== Sys2Proof/Machine/Events.lean ====
section
/-! DEFINITION. The abstract machine of 40_framing.md (R73 to R76) and the host events of
42_output_and_host.md (R126 to R130): `step : Config -> State -> Event -> State x List Line`, here
`eventStep`; and the meanings of the five CTL4 rows over it. -/
namespace Sys2Proof.Machine

/-- The four events of 40_framing.md R73. -/
inductive Event where
  | reset
  | sample (smp : Nat)
  | interrupt
  | sourceEnd
deriving DecidableEq, Repr

/-- `sample_step` (40_framing.md R76), statement by statement. -/
def sampleStep (cfg : Config) (smp : Nat) (w : Work) : Work :=
  let sg := extract smp
  if !sg.pwo then
    let w := if w.dec.inCommand then flush w else w
    finishSample cfg sg.p2 (setInCommand false w)
  else if edge sg.p2 w.dec.lastP2 then
    let w := if !w.dec.inCommand then startCommand w else w
    let w := if switched w.dec.lastSync sg.sync then enterChannel sg.sync w else w
    acceptBit cfg sg.p2 (selectedBit sg) w
  else finishSample cfg sg.p2 w

/-- `host_reset` (42_output_and_host.md R126). -/
def hostReset : Work := emit .banner (beginWork Decoder.initial)

/-- `host_interrupt` (42_output_and_host.md R127). -/
def hostInterrupt (d : Decoder) : Work := haltDiscarding .haltOk (emit .final (beginWork d))

/-- `host_source_end` (42_output_and_host.md R128). -/
def hostSourceEnd (d : Decoder) : Work := haltDiscarding .haltErr (beginWork d)

/-- Event dispatch (40_framing.md R74): RESET in every run state, every other event only in `RUN`. -/
def eventStep (cfg : Config) (d : Decoder) : Event → Work
  | .reset => hostReset
  | .interrupt => if d.run = .run then hostInterrupt d else beginWork d
  | .sourceEnd => if d.run = .run then hostSourceEnd d else beginWork d
  | .sample smp =>
    if d.run = .run then sampleStep cfg smp (beginWork (countSample d)) else beginWork d

/-- The abstract machine over a list of events, whatever their kind: the last record, and every line
emitted, in order (20_memory.md R51, R52). Where the runs among them begin and end is `runsOf` of
Machine/Runs.lean. -/
def runEvents (cfg : Config) (d : Decoder) : List Event → Work
  | [] => beginWork d
  | e :: es =>
    let w := eventStep cfg d e
    let w' := runEvents cfg w.dec es
    { w' with out := w.out ++ w'.out }

/-- `RESET` (42_output_and_host.md R126; 70_reset_and_hazards.md R151, R152): every field of the
block takes its reset value, the queue among them. -/
def execReset (s : State) : Host.Outcome State Fault Refusal :=
  let w := eventStep s.cfg s.dec .reset
  .next { s with dec := w.dec, outq := w.out }

/-- `INTERRUPT` (42_output_and_host.md R127, R129). -/
def execInterrupt (s : State) : Host.Outcome State Fault Refusal :=
  .next (absorb s (eventStep s.cfg s.dec .interrupt))

/-- `SOURCE_END` (42_output_and_host.md R128, R129). -/
def execSourceEnd (s : State) : Host.Outcome State Fault Refusal :=
  .next (absorb s (eventStep s.cfg s.dec .sourceEnd))

/-- `SAMPLE` (40_framing.md R74 to R76; 42_output_and_host.md R129). -/
def execSample (smp : Nat) (s : State) : Host.Outcome State Fault Refusal :=
  .next (absorb s (eventStep s.cfg s.dec (.sample smp)))

/-- `IDLE` (42_output_and_host.md R130): a cycle on which no event is taken changes nothing. -/
def execIdle (s : State) : Host.Outcome State Fault Refusal := .next s

end Sys2Proof.Machine
end

