-- ==== Sys2Proof/Machine/Framing.lean ====
section
/-! DEFINITION. The meanings of the ten operations (40_framing.md R82 to R91), each the pseudocode of
its own rule over the shared operations. A meaning does not test the state condition of its row:
`decodeOp` selects it only where the condition holds (30_encoding.md R68; log entry 7). -/
namespace Sys2Proof.Machine

/-- `PWO_LOW_IDLE` (40_framing.md R82). -/
def execPwoLowIdle (p2 : Bool) (s : State) : Host.Outcome State Fault Refusal :=
  onSample s fun w => finishSample s.cfg p2 (setInCommand false w)

/-- `PWO_LOW_END` (40_framing.md R83). -/
def execPwoLowEnd (p2 : Bool) (s : State) : Host.Outcome State Fault Refusal :=
  onSample s fun w => finishSample s.cfg p2 (setInCommand false (flush w))

/-- `STROBE_LOW` (40_framing.md R84). -/
def execStrobeLow (s : State) : Host.Outcome State Fault Refusal :=
  onSample s fun w => finishSample s.cfg false w

/-- `STROBE_HELD` (40_framing.md R85). -/
def execStrobeHeld (s : State) : Host.Outcome State Fault Refusal :=
  onSample s fun w => finishSample s.cfg true w

/-- `START_C` (40_framing.md R86). -/
def execStartC (isa : Bool) (s : State) : Host.Outcome State Fault Refusal :=
  onSample s fun w => acceptBit s.cfg true isa (enterChannel true (startCommand w))

/-- `START_D` (40_framing.md R87). -/
def execStartD (iwa : Bool) (s : State) : Host.Outcome State Fault Refusal :=
  onSample s fun w => acceptBit s.cfg true iwa (enterChannel false (startCommand w))

/-- `BIT_C` (40_framing.md R88). -/
def execBitC (isa : Bool) (s : State) : Host.Outcome State Fault Refusal :=
  onSample s fun w => acceptBit s.cfg true isa w

/-- `BIT_D` (40_framing.md R89). -/
def execBitD (iwa : Bool) (s : State) : Host.Outcome State Fault Refusal :=
  onSample s fun w => acceptBit s.cfg true iwa w

/-- `SWITCH_C` (40_framing.md R90). -/
def execSwitchC (isa : Bool) (s : State) : Host.Outcome State Fault Refusal :=
  onSample s fun w => acceptBit s.cfg true isa (enterChannel true w)

/-- `SWITCH_D` (40_framing.md R91). -/
def execSwitchD (iwa : Bool) (s : State) : Host.Outcome State Fault Refusal :=
  onSample s fun w => acceptBit s.cfg true iwa (enterChannel false w)

end Sys2Proof.Machine
end

