-- ==== Sys2Proof/Machine/Dispatch.lean ====
section
/-! DEFINITION. The dispatch: one arm per constructor of Instr. -/
namespace Sys2Proof.Machine

def exec (i : Instr) (s : State) : Host.Outcome State Fault Refusal :=
  match i with
  | .pwoLowIdle p2 => Sys2Proof.Machine.execPwoLowIdle p2 s
  | .pwoLowEnd p2 => Sys2Proof.Machine.execPwoLowEnd p2 s
  | .strobeLow => Sys2Proof.Machine.execStrobeLow s
  | .strobeHeld => Sys2Proof.Machine.execStrobeHeld s
  | .startC isa => Sys2Proof.Machine.execStartC isa s
  | .startD iwa => Sys2Proof.Machine.execStartD iwa s
  | .bitC isa => Sys2Proof.Machine.execBitC isa s
  | .bitD iwa => Sys2Proof.Machine.execBitD iwa s
  | .switchC isa => Sys2Proof.Machine.execSwitchC isa s
  | .switchD iwa => Sys2Proof.Machine.execSwitchD iwa s
  | .reset => Sys2Proof.Machine.execReset s
  | .interrupt => Sys2Proof.Machine.execInterrupt s
  | .sourceEnd => Sys2Proof.Machine.execSourceEnd s
  | .sample smp => Sys2Proof.Machine.execSample smp s
  | .idle => Sys2Proof.Machine.execIdle s

end Sys2Proof.Machine
end

