-- ==== Sys2Proof/Machine/Ports.lean ====
section
/-! DEFINITION. The cycle level (92_eei_decisions.md D2): the hardware codes of the enumerated fields
(10_state.md R36, R37), the hardware view of the accumulator (R35; 41_accumulator.md R115), the output
ports (30_encoding.md R65, 20_memory.md R57, 42_output_and_host.md R125, 60_exceptions.md R138), and
what one clock edge does (R65, R57). -/
namespace Sys2Proof.Machine

/-! ### Hardware codes -/

/-- `{known, val}` of a `Tri` (10_state.md R36). -/
def triCode : Tri → BitVec 2
  | .u => 0b00
  | .f => 0b10
  | .t => 0b11

/-- `run[1:0]` (10_state.md R37). -/
def runCode : RunState → BitVec 2
  | .run => 0b00
  | .haltOk => 0b01
  | .haltErr => 0b10
  | .haltFault => 0b11

/-- `fault_cause` (10_state.md R37). -/
def causeCode : FaultCause → BitVec 1
  | .none => 0
  | .accOverflow => 1

/-- The bits of a register that holds `0..m`: `ceil(log2(m+1))` (10_state.md R22, R35). -/
def regWidth (m : Nat) : Nat := Nat.clog 2 (m + 1)

/-! ### The hardware accumulator -/

/-- `acc_len` (10_state.md R35). -/
def accLen (d : Decoder) : Nat := d.bits.length

/-- `acc` holds the bits of `d`: `acc[i] = bits[i]` for `i < acc_len`; the rest of `acc` is don't-care
(10_state.md R35; 93_implementation_defined.md I14). -/
def AccHolds (acc : Nat → Bool) (d : Decoder) : Prop :=
  ∀ i, (h : i < d.bits.length) → acc i = d.bits[i]

/-- The bits `acc[lo + len - 1 : lo]`, lowest index first. -/
def accField (acc : Nat → Bool) (lo len : Nat) : List Bool :=
  (List.range len).map fun i => acc (lo + i)

/-- The number of header bits (41_accumulator.md R115): 2 when the low three bits of `acc_len` are
`0b010`. -/
def hwHeader (len : Nat) : Nat := if len % 8 = 2 then 2 else 0

/-- The groups as a function of `acc_len` and `acc` (41_accumulator.md R115). -/
def hwGroups (acc : Nat → Bool) (len : Nat) : List (List Bool) :=
  let h := hwHeader len
  let q := (len - h) / 8
  let header := if h = 0 then [] else [accField acc 0 h]
  let fulls := (List.range q).map fun k => accField acc (h + 8 * k) 8
  let ragged := if len = h + 8 * q then [] else [accField acc (h + 8 * q) (len - (h + 8 * q))]
  header ++ fulls ++ ragged

/-! ### Output ports -/

/-- `s_ready` (30_encoding.md R65): `rst = 0`, `run = RUN` and `outq` empty. -/
def sReady (s : State) (rst : Bool) : Bool :=
  !rst && decide (s.dec.run = .run) && decide (s.outq = [])

/-- `l_valid` (20_memory.md R57): `rst = 0` and `outq` not empty. -/
def lValid (s : State) (rst : Bool) : Bool := !rst && decide (s.outq ≠ [])

/-- `halted` (60_exceptions.md R138). -/
def halted (d : Decoder) : Bool := decide (d.run ≠ .run)

/-- `halt_err` (60_exceptions.md R138). -/
def haltErr (d : Decoder) : Bool := decide (d.run = .haltErr ∨ d.run = .haltFault)

/-- `fault` (60_exceptions.md R138). -/
def faultOut (d : Decoder) : Bool := decide (d.run = .haltFault)

/-- The line port fields (42_output_and_host.md R125). `count` and `bits` are the numbers on
`l_count` and `l_bits`; `l_bits[i]` is bit `i` of the second. -/
structure LinePort where
  kind : BitVec 3
  channel : Bool
  count : Nat
  bits : Nat
deriving DecidableEq, Repr

/-- The number whose bit `i` is the `i`-th arrived bit (42_output_and_host.md R125). -/
def bitsNumber : List Bool → Nat
  | [] => 0
  | b :: bs => b.toNat + 2 * bitsNumber bs

/-- How a line is driven on the port (42_output_and_host.md R125). -/
def drive : Line → LinePort
  | .banner => { kind := 0, channel := false, count := 0, bits := 0 }
  | .blank => { kind := 1, channel := false, count := 0, bits := 0 }
  | .start k => { kind := 2, channel := false, count := k, bits := 0 }
  | .data p gs =>
    { kind := 3, channel := decide (p = .c), count := gs.flatten.length, bits := bitsNumber gs.flatten }
  | .final => { kind := 4, channel := false, count := 0, bits := 0 }

/-- The line port of a cycle: the head of `outq` when `l_valid = 1`; the spec gives the fields no
value otherwise, and the model none (log entry 13). -/
def linePort (s : State) (rst : Bool) : Option LinePort :=
  if rst then none else s.outq.head?.map drive

/-! ### One clock edge -/

/-- The pins when the environment has given no more cycles: every input low (DESIGN CHOICE, unsafe,
log entry 2). -/
def quietPins : Pins :=
  { rst := false, intr := false, sEnd := false, sValid := false, sData := 0, lReady := false }

/-- The pins of the coming cycle. -/
def pinsNow (s : State) : Pins := s.feed.head?.getD quietPins

/-- The state with the coming cycle's pins used up. -/
def nextCycle (s : State) : State := { s with feed := s.feed.tail }

/-- The event taken on the coming edge (30_encoding.md R65): RESET whatever `s_ready` is, any other
only with `s_ready = 1`; `none` is a stalled or halted cycle. -/
def fetch (s : State) : Option Instr :=
  let p := pinsNow s
  if p.rst || sReady s p.rst then some (decodeCtl p) else none

/-- The line handshake (20_memory.md R57): the sink takes the head of `outq` when it is ready. -/
def handshake (lReady : Bool) (s : State) : State :=
  match s.outq with
  | [] => s
  | l :: ls => if lReady then { s with outq := ls, delivered := s.delivered ++ [l] } else s

/-- The state in which the sink has taken every queued line (70_reset_and_hazards.md R155, item 3). -/
def drained (s : State) : State := { s with outq := [], delivered := s.delivered ++ s.outq }

/-- The state in which the coming cycle takes the event `p` offers: every line delivered, `run = RUN`,
and `p` the coming pins. -/
def offering (s : State) (p : Pins) : State :=
  let s := drained s
  { s with feed := p :: s.feed, dec := { s.dec with run := .run } }

end Sys2Proof.Machine
end

