-- ==== Sys2Proof/Machine/Step.lean ====
section
/-! DEFINITION. One step is one rising clock edge (30_encoding.md R65; 20_memory.md R57): the event the
pins select, if one is taken, otherwise the line handshake. -/
namespace Sys2Proof.Machine

/-- One rising clock edge: the event taken, or on a stalled or halted cycle the line handshake. A
cycle that takes an event moves no line: `l_valid = 0` on it, since `rst = 1` or `outq` is empty. -/
def step (s : State) : Host.Outcome State Fault Refusal :=
  match fetch s with
  | some i => exec i (nextCycle s)
  | none => .next (handshake (pinsNow s).lReady (nextCycle s))

/-- `s` with the given word (numbered as spec/opcode_table.json numbers it) on the pins of its coming
cycle, ready to be taken (log entry 4). -/
def State.withFetchWord (s : State) (nbits w : Nat) : State :=
  offering s (pinsOfWord (tableFormat nbits w) w)

end Sys2Proof.Machine
end

