-- ==== Sys2Proof/Machine/Render.lean ====
section
/-! DEFINITION. The exact text of the line records (42_output_and_host.md R117 to R124), as bytes. The
parameters `fmt6` and `SAMPLE_PERIOD` (00_scope.md R8) are arguments. -/
namespace Sys2Proof.Machine

/-- The ASCII codes of characters (42_output_and_host.md R117). -/
def ascii (cs : List Char) : Text := cs.map fun c => BitVec.ofNat 8 c.toNat

/-- The line end, `LF` (42_output_and_host.md R117). -/
def lf : Byte := 0x0A

/-- `round_half_even` of the rational `a / b` (42_output_and_host.md R118). -/
def roundHalfEven (a b : Nat) : Nat :=
  let q := a / b
  let r := a % b
  if 2 * r < b then q
  else if b < 2 * r then q + 1
  else if q % 2 = 0 then q else q + 1

/-- `round_half_even(v * 1000000)` (42_output_and_host.md R118). -/
def micros (v : ℚ≥0) : Nat := roundHalfEven (v.num * 1000000) v.den

/-- The decimal digits of a number before those collected so far; the first argument bounds how
many. -/
def digitsBefore : Nat → Nat → List Nat → List Nat
  | 0, _, acc => acc
  | k + 1, x, acc => if x < 10 then x :: acc else digitsBefore k (x / 10) (x % 10 :: acc)

/-- `dec(x)` as digits (42_output_and_host.md R118): no leading zero, and `[0]` for 0. -/
def decDigits (x : Nat) : List Nat := digitsBefore (x.log2 + 1) x []

/-- `pad6` (42_output_and_host.md R118): zeros in front to make six digits. -/
def pad6 (ds : List Nat) : List Nat := List.replicate (6 - ds.length) 0 ++ ds

/-- Digits as ASCII characters. -/
def digitText (ds : List Nat) : Text := ds.map fun d => BitVec.ofNat 8 (0x30 + d)

/-- The default `fmt6` (42_output_and_host.md R118). -/
def fmt6Default (v : ℚ≥0) : Text :=
  let m := micros v
  digitText (decDigits (m / 1000000)) ++ ascii ['.'] ++ digitText (pad6 (decDigits (m % 1000000)))

/-- The letter of a channel (42_output_and_host.md R122). -/
def channelText : Channel → Text
  | .c => ascii ['C']
  | .d => ascii ['D']

/-- `str(g)` (41_accumulator.md R114): a bit is the character `1` or `0`. -/
def groupText (g : List Bool) : Text := g.map fun b => if b then 0x31 else 0x30

/-- `render` (42_output_and_host.md R119 to R123). -/
def render (fmt6 : ℚ≥0 → Text) (period : ℚ≥0) : Line → Text
  | .banner =>
    ascii ['s', 'a', 'm', 'p', 'l', 'i', 'n', 'g', ' ', 'e', 'v', 'e', 'r', 'y', ' ']
      ++ fmt6 period ++ ascii ['s'] ++ [lf]
  | .blank => [lf]
  | .start k => ascii ['S', ' ', '+'] ++ fmt6 (k * period) ++ ascii ['s'] ++ [lf]
  | .data p gs => channelText p ++ gs.flatMap (fun g => ascii [' '] ++ groupText g) ++ [lf]
  | .final => [lf]

/-- The text of a list of lines (42_output_and_host.md R124). -/
def textOf (fmt6 : ℚ≥0 → Text) (period : ℚ≥0) (ls : List Line) : Text :=
  ls.flatMap (render fmt6 period)

/-- The text of every line the sink has taken so far, over all runs (log entry 3), by the instance whose
`SAMPLE_PERIOD` is `Config.samplePeriod` and whose `fmt6` is the default (00_scope.md R8). The text of one
run (42_output_and_host.md R124) is in `currentYield` of Machine/Runs.lean. -/
def sinkText (s : State) : Text := textOf fmt6Default Config.samplePeriod s.delivered

end Sys2Proof.Machine
end

