-- ==== Sys2Proof/Machine/Runs.lean ====
section
/-! DEFINITION. Runs (40_framing.md R73; 60_exceptions.md R143): where a run begins and ends, what it
yields, and which run a state of the cycle level is in. A run here is its record and every line emitted
since its RESET. -/
namespace Sys2Proof.Machine

/-- How a run stands (60_exceptions.md R143): a prefix that more events may follow, a finished run, or
one ended by the fault, which R143 does not count as finished (92_eei_decisions.md D6, D23). -/
inductive RunEnd where
  | unfinished
  | finished
  | faulted
deriving DecidableEq, Repr

/-- How a run with this last `run` value stands (60_exceptions.md R143). -/
def runEnd : RunState → RunEnd
  | .run => .unfinished
  | .haltOk => .finished
  | .haltErr => .finished
  | .haltFault => .faulted

/-- The run with one more event. A run ends at the first step that leaves `run != RUN`
(60_exceptions.md R143), so one that has ended takes none. -/
def runOn (cfg : Config) (w : Work) (e : Event) : Work :=
  if w.dec.run = .run then
    let w' := eventStep cfg w.dec e
    { w' with out := w.out ++ w'.out }
  else w

/-- The runs of a list of events, the first of them the given one: a RESET begins another run
(70_reset_and_hazards.md R154; log entry 23). -/
def runsFrom (cfg : Config) (w : Work) : List Event → List Work
  | [] => [w]
  | e :: es => if e = .reset then w :: runsFrom cfg hostReset es else runsFrom cfg (runOn cfg w e) es

/-- The runs of a list of events. Events before the first RESET belong to no run
(70_reset_and_hazards.md R153). -/
def runsOf (cfg : Config) : List Event → List Work
  | [] => []
  | e :: es => if e = .reset then runsFrom cfg hostReset es else runsOf cfg es

/-- What a run yields (60_exceptions.md R143): its text, its `run` value, the three status outputs of
R138, and how it stands. -/
structure RunYield where
  text : Text
  run : RunState
  halted : Bool
  haltErr : Bool
  fault : Bool
  ended : RunEnd
deriving DecidableEq, Repr

/-- The yield of a run (60_exceptions.md R143; 42_output_and_host.md R124). -/
def yieldOf (fmt6 : ℚ≥0 → Text) (period : ℚ≥0) (w : Work) : RunYield :=
  { text := textOf fmt6 period w.out
    run := w.dec.run
    halted := halted w.dec
    haltErr := haltErr w.dec
    fault := faultOut w.dec
    ended := runEnd w.dec.run }

/-- The lines from the last `Banner` on, which every RESET emits (42_output_and_host.md R126). -/
def linesSinceReset : List Line → List Line
  | [] => []
  | l :: ls => if .banner ∈ ls then linesSinceReset ls else l :: ls

/-- The run a state of the cycle level is in: its record, and every line emitted since the RESET, those
the sink has and those still queued (42_output_and_host.md R124; 10_state.md R38). -/
def currentRun (s : State) : Work :=
  { dec := s.dec, out := linesSinceReset (s.delivered ++ s.outq) }

/-- The yield of the run a state is in, by the instance whose `SAMPLE_PERIOD` is `Config.samplePeriod`
and whose `fmt6` is the default (00_scope.md R8). -/
def currentYield (s : State) : RunYield := yieldOf fmt6Default Config.samplePeriod (currentRun s)

end Sys2Proof.Machine
end

