-- ==== Sys2Proof/Safety.lean ====
section
/-! DEFINITION. What the statements speak of: the invariant of the machine (40_framing.md R93 to R96,
10_state.md R22, R26, R28, R38), the bits a run accepts and the bits its lines carry (R100, R103), and
runs of cycles with the events they take. -/
namespace Sys2Proof.Machine

/-! ### The invariant -/

/-- In `RUN`, a command is open exactly when bits are held, and then `last_sync` is known
(40_framing.md R93, R94, R95). -/
abbrev Framed (d : Decoder) : Prop :=
  d.run = .run →
    (d.inCommand = true ↔ d.bits ≠ []) ∧ (d.inCommand = true → d.lastSync ≠ .u)

/-- In `RUN`, `last_p2` is known once a sample has been taken (40_framing.md R96). -/
abbrev StrobeKnown (d : Decoder) : Prop := d.run = .run → 0 < d.n → d.lastP2 ≠ .u

/-- `fault_cause` is `ACC_OVERFLOW` exactly in `HALT_FAULT` (10_state.md R28; 60_exceptions.md R137). -/
abbrev CauseMatches (d : Decoder) : Prop := d.faultCause = .accOverflow ↔ d.run = .haltFault

/-- A line the block may emit: a count within `SL_MAX` (10_state.md R22), or the non-empty groups of at
most `BITS_CAP` bits (41_accumulator.md R107). -/
def lineOk (cfg : Config) : Line → Bool
  | .banner => true
  | .blank => true
  | .start k => cfg.slMax.allows k
  | .data _ gs =>
    decide (gs = group gs.flatten) && decide (gs ≠ []) && cfg.bitsCap.allows gs.flatten.length
  | .final => true

/-- The invariant of the machine. -/
structure Inv (s : State) : Prop where
  framed : Framed s.dec
  strobe : StrobeKnown s.dec
  cause : CauseMatches s.dec
  count : s.cfg.slMax.allows s.dec.sinceLast = true
  capacity : s.cfg.bitsCap.allows s.dec.bits.length = true
  queue : s.outq.length ≤ 2
  lines : ∀ l ∈ s.outq, lineOk s.cfg l = true

/-! ### Accepted bits and carried bits -/

/-- Whether a sample taken in `RUN` is a strobe edge while `pwo` is true, that is whether its bit is
accepted (40_framing.md R76, R100). -/
def accepts (d : Decoder) (smp : Nat) : Bool :=
  (extract smp).pwo && edge (extract smp).p2 d.lastP2

/-- A bit with the channel it was taken on: `true` is `C` (40_framing.md R79). -/
abbrev TaggedBit := Bool × Bool

/-- The bits a line carries, each with the line's channel, in order. -/
def lineBits : Line → List TaggedBit
  | .banner => []
  | .blank => []
  | .start _ => []
  | .data p gs => gs.flatten.map fun b => (decide (p = .c), b)
  | .final => []

/-- The bits held, each with the channel a flush would give it. -/
def heldBits (d : Decoder) : List TaggedBit :=
  d.bits.map fun b => (decide (lineChannel d.lastSync = .c), b)

/-- The bit a sample gives if it is accepted, with its channel (40_framing.md R79). -/
def acceptedBit (d : Decoder) (smp : Nat) : List TaggedBit :=
  if accepts d smp then [((extract smp).sync, selectedBit (extract smp))] else []

/-- The bits accepted over a list of samples, in order. -/
def acceptedBits (cfg : Config) (d : Decoder) : List Nat → List TaggedBit
  | [] => []
  | smp :: smps => acceptedBit d smp ++ acceptedBits cfg (eventStep cfg d (.sample smp)).dec smps

/-- For each sample of a list, whether its bit is accepted. -/
def acceptances (cfg : Config) (d : Decoder) : List Nat → List Bool
  | [] => []
  | smp :: smps => accepts d smp :: acceptances cfg (eventStep cfg d (.sample smp)).dec smps

/-- A run of samples of the abstract machine. -/
def runSamples (cfg : Config) (d : Decoder) (smps : List Nat) : Work :=
  runEvents cfg d (smps.map .sample)

/-! ### Runs of cycles -/

/-- The event an instruction stands for (40_framing.md R73); the ten operations are no events. -/
def eventOf : Instr → Option Event
  | .pwoLowIdle _ => none
  | .pwoLowEnd _ => none
  | .strobeLow => none
  | .strobeHeld => none
  | .startC _ => none
  | .startD _ => none
  | .bitC _ => none
  | .bitD _ => none
  | .switchC _ => none
  | .switchD _ => none
  | .reset => some .reset
  | .interrupt => some .interrupt
  | .sourceEnd => some .sourceEnd
  | .sample smp => some (.sample smp)
  | .idle => none

/-- The event taken on the coming edge, if any (30_encoding.md R65). -/
def takenEvent (s : State) : Option Event := (fetch s).bind eventOf

/-- The state after `k` cycles. -/
def runCycles : Nat → State → State
  | 0, s => s
  | k + 1, s =>
    match step s with
    | .next t => runCycles k t
    | .fault _ => s
    | .refused _ => s

/-- The events taken in `k` cycles, in order. -/
def eventsTaken : Nat → State → List Event
  | 0, _ => []
  | k + 1, s =>
    match step s with
    | .next t => (takenEvent s).toList ++ eventsTaken k t
    | .fault _ => []
    | .refused _ => []

/-- Every line emitted so far that no RESET has dropped: those the sink has and those still queued. -/
def emitted (s : State) : List Line := s.delivered ++ s.outq

/-- No cycle of the feed raises `rst`. -/
def noReset (s : State) : Prop := ∀ p ∈ s.feed, p.rst = false

end Sys2Proof.Machine
end

