-- ==== Sys2Proof/Certificates/Slice0/Obligations.lean ====
section
/-! DEFINITION. The statements for the provers. Each docstring names the rule of spec/ it formalises,
or says that it is derived. A statement about a step of a row gives the whole next state, so it is the
row's result, its completion and its frame at once. -/
section
open Sys2Proof Sys2Proof.Machine

/-! ### Reset -/

/-- R126, R151: RESET from every state, as an instruction and as a cycle with `rst = 1`. -/
def Obligations.ResetReinitialisesEveryField : Prop :=
  ∀ s : State,
    let d : Decoder :=
      { sinceLast := 0, lastP2 := .u, lastSync := .u, inCommand := false, bits := [], run := .run,
        faultCause := .none, n := 0 }
    exec .reset s = .next { s with dec := d, outq := [.banner] } ∧
    (∀ p rest, s.feed = p :: rest → p.rst = true →
      step s = .next { s with dec := d, outq := [.banner], feed := rest }) ∧
    State.reset.dec = d ∧ State.reset.outq = [.banner] ∧
    triCode d.lastP2 = 0b00 ∧ triCode d.lastSync = 0b00 ∧ accLen d = 0 ∧ runCode d.run = 0b00 ∧
    causeCode d.faultCause = 0 ∧ halted d = false ∧ haltErr d = false ∧ faultOut d = false

/-- Derived (R93 to R96, R151): the invariant holds right after RESET, at every configuration and with
every input to come. -/
def Obligations.InvariantHoldsAfterReset : Prop :=
  ∀ (cfg : Config) (feed : List Pins), Inv { State.reset with cfg := cfg, feed := feed }

/-- R152: while `rst` is held, every edge re-writes the reset values, and `s_ready` and `l_valid` are 0;
after it the sink gets the one Banner. -/
def Obligations.HeldResetQueuesOneBanner : Prop :=
  ∀ (s : State) (k : Nat), k < s.feed.length → (∀ p ∈ s.feed.take (k + 1), p.rst = true) →
    let t : State :=
      { s with dec := Decoder.initial, outq := [.banner], feed := s.feed.drop (k + 1) }
    runCycles (k + 1) s = t ∧ sReady s true = false ∧ lValid s true = false ∧
    (∀ p rest, t.feed = p :: rest → p.rst = false → p.lReady = true →
      step t = .next { t with outq := [], delivered := s.delivered ++ [.banner], feed := rest })

/-- R154: without a RESET in the run, the first line is `Banner`, it appears once, and no event is
taken before the sink has taken it. -/
def Obligations.BannerComesFirstAndOnce : Prop :=
  ∀ (cfg : Config) (feed : List Pins) (k : Nat),
    let s : State := { State.reset with cfg := cfg, feed := feed }
    noReset s → k ≤ feed.length →
      (∃ ls, emitted (runCycles k s) = .banner :: ls ∧ Line.banner ∉ ls) ∧
      ((runCycles k s).delivered = [] → eventsTaken k s = [])

/-! ### The ten operations -/

/-- R82. -/
def Obligations.PwoLowIdleResult : Prop :=
  ∀ (s : State) (smp : Nat), s.dec.run = .run → s.dec.inCommand = false →
    smp.testBit 5 = false →
    let t : State :=
      { s with
        dec := { s.dec with
          lastP2 := tri (smp.testBit 4)
          sinceLast := sat s.cfg (s.dec.sinceLast + 1)
          n := s.dec.n + 1 } }
    decodeOp s.dec.view smp = .pwoLowIdle (smp.testBit 4) ∧
    exec (.pwoLowIdle (smp.testBit 4)) s = .next t ∧ exec (.sample smp) s = .next t

/-- R83. -/
def Obligations.PwoLowEndResult : Prop :=
  ∀ (s : State) (smp : Nat), s.dec.run = .run → s.dec.inCommand = true →
    smp.testBit 5 = false →
    let t : State :=
      { s with
        dec := { s.dec with
          inCommand := false
          bits := []
          lastP2 := tri (smp.testBit 4)
          sinceLast := sat s.cfg (s.dec.sinceLast + 1)
          n := s.dec.n + 1 }
        outq := s.outq ++ (if s.dec.bits = [] then [] else
          [.data (if s.dec.lastSync = .t then .c else .d) (group s.dec.bits)]) }
    decodeOp s.dec.view smp = .pwoLowEnd (smp.testBit 4) ∧
    exec (.pwoLowEnd (smp.testBit 4)) s = .next t ∧ exec (.sample smp) s = .next t

/-- R84. -/
def Obligations.StrobeLowResult : Prop :=
  ∀ (s : State) (smp : Nat), s.dec.run = .run → smp.testBit 5 = true → smp.testBit 4 = false →
    let t : State :=
      { s with
        dec := { s.dec with
          lastP2 := .f
          sinceLast := sat s.cfg (s.dec.sinceLast + 1)
          n := s.dec.n + 1 } }
    decodeOp s.dec.view smp = .strobeLow ∧ exec .strobeLow s = .next t ∧
    exec (.sample smp) s = .next t

/-- R85. -/
def Obligations.StrobeHeldResult : Prop :=
  ∀ (s : State) (smp : Nat), s.dec.run = .run → smp.testBit 5 = true → smp.testBit 4 = true →
    s.dec.lastP2 = .t →
    let t : State :=
      { s with
        dec := { s.dec with sinceLast := sat s.cfg (s.dec.sinceLast + 1), n := s.dec.n + 1 } }
    decodeOp s.dec.view smp = .strobeHeld ∧ exec .strobeHeld s = .next t ∧
    exec (.sample smp) s = .next t

/-- Derived (R86), from every state. With bits held in Idle, which no run reaches, the queue takes three
lines, the model's choice (log entry 9; R38, I12). -/
def Obligations.StartCResult : Prop :=
  ∀ (s : State) (smp : Nat), s.cfg.wf = true → s.dec.run = .run →
    smp.testBit 5 = true → smp.testBit 4 = true → smp.testBit 7 = true →
    s.dec.lastP2 ≠ .t → s.dec.inCommand = false →
    let t : State :=
      { s with
        dec := { s.dec with
          inCommand := true
          lastSync := .t
          bits := [smp.testBit 2]
          lastP2 := .t
          sinceLast := 1
          n := s.dec.n + 1 }
        outq := s.outq ++ [.blank, .start s.dec.sinceLast] ++
          (if s.dec.bits = [] then [] else [.data .d (group s.dec.bits)]) }
    decodeOp s.dec.view smp = .startC (smp.testBit 2) ∧
    exec (.startC (smp.testBit 2)) s = .next t ∧ exec (.sample smp) s = .next t

/-- Derived (R87), from every state. With bits held in Idle, which no run reaches, the queue takes three
lines, the model's choice (log entry 9; R38, I12). -/
def Obligations.StartDResult : Prop :=
  ∀ (s : State) (smp : Nat), s.cfg.wf = true → s.dec.run = .run →
    smp.testBit 5 = true → smp.testBit 4 = true → smp.testBit 7 = false →
    s.dec.lastP2 ≠ .t → s.dec.inCommand = false →
    let t : State :=
      { s with
        dec := { s.dec with
          inCommand := true
          lastSync := .f
          bits := [smp.testBit 1]
          lastP2 := .t
          sinceLast := 1
          n := s.dec.n + 1 }
        outq := s.outq ++ [.blank, .start s.dec.sinceLast] ++
          (if s.dec.bits = [] then [] else [.data .d (group s.dec.bits)]) }
    decodeOp s.dec.view smp = .startD (smp.testBit 1) ∧
    exec (.startD (smp.testBit 1)) s = .next t ∧ exec (.sample smp) s = .next t

/-- R88: the append, and the fault when the accumulator is full. The ghost counter after the fault is
left open here (log entry 11). -/
def Obligations.BitCResult : Prop :=
  ∀ (s : State) (smp : Nat), s.cfg.wf = true → s.dec.run = .run →
    smp.testBit 5 = true → smp.testBit 4 = true → smp.testBit 7 = true →
    s.dec.lastP2 ≠ .t → s.dec.inCommand = true → s.dec.lastSync = .t →
    decodeOp s.dec.view smp = .bitC (smp.testBit 2) ∧
    (s.cfg.bitsCap ≠ .finite s.dec.bits.length →
      let t : State :=
        { s with
          dec := { s.dec with
            bits := s.dec.bits ++ [smp.testBit 2]
            lastP2 := .t
            sinceLast := 1
            n := s.dec.n + 1 } }
      exec (.bitC (smp.testBit 2)) s = .next t ∧ exec (.sample smp) s = .next t) ∧
    (s.cfg.bitsCap = .finite s.dec.bits.length →
      ∃ m : Nat,
        let t : State :=
          { s with dec := { s.dec with run := .haltFault, faultCause := .accOverflow, n := m } }
        exec (.bitC (smp.testBit 2)) s = .next t ∧ exec (.sample smp) s = .next t)

/-- R89: the append, and the fault when the accumulator is full. The ghost counter after the fault is
left open here (log entry 11). -/
def Obligations.BitDResult : Prop :=
  ∀ (s : State) (smp : Nat), s.cfg.wf = true → s.dec.run = .run →
    smp.testBit 5 = true → smp.testBit 4 = true → smp.testBit 7 = false →
    s.dec.lastP2 ≠ .t → s.dec.inCommand = true → s.dec.lastSync = .f →
    decodeOp s.dec.view smp = .bitD (smp.testBit 1) ∧
    (s.cfg.bitsCap ≠ .finite s.dec.bits.length →
      let t : State :=
        { s with
          dec := { s.dec with
            bits := s.dec.bits ++ [smp.testBit 1]
            lastP2 := .t
            sinceLast := 1
            n := s.dec.n + 1 } }
      exec (.bitD (smp.testBit 1)) s = .next t ∧ exec (.sample smp) s = .next t) ∧
    (s.cfg.bitsCap = .finite s.dec.bits.length →
      ∃ m : Nat,
        let t : State :=
          { s with dec := { s.dec with run := .haltFault, faultCause := .accOverflow, n := m } }
        exec (.bitD (smp.testBit 1)) s = .next t ∧ exec (.sample smp) s = .next t)

/-- R90. -/
def Obligations.SwitchCResult : Prop :=
  ∀ (s : State) (smp : Nat), s.cfg.wf = true → s.dec.run = .run →
    smp.testBit 5 = true → smp.testBit 4 = true → smp.testBit 7 = true →
    s.dec.lastP2 ≠ .t → s.dec.inCommand = true → s.dec.lastSync ≠ .t →
    let t : State :=
      { s with
        dec := { s.dec with
          lastSync := .t
          bits := [smp.testBit 2]
          lastP2 := .t
          sinceLast := 1
          n := s.dec.n + 1 }
        outq := s.outq ++ (if s.dec.bits = [] then [] else [.data .d (group s.dec.bits)]) }
    decodeOp s.dec.view smp = .switchC (smp.testBit 2) ∧
    exec (.switchC (smp.testBit 2)) s = .next t ∧ exec (.sample smp) s = .next t

/-- R91. -/
def Obligations.SwitchDResult : Prop :=
  ∀ (s : State) (smp : Nat), s.cfg.wf = true → s.dec.run = .run →
    smp.testBit 5 = true → smp.testBit 4 = true → smp.testBit 7 = false →
    s.dec.lastP2 ≠ .t → s.dec.inCommand = true → s.dec.lastSync ≠ .f →
    let t : State :=
      { s with
        dec := { s.dec with
          lastSync := .f
          bits := [smp.testBit 1]
          lastP2 := .t
          sinceLast := 1
          n := s.dec.n + 1 }
        outq := s.outq ++ (if s.dec.bits = [] then [] else
          [.data (if s.dec.lastSync = .t then .c else .d) (group s.dec.bits)]) }
    decodeOp s.dec.view smp = .switchD (smp.testBit 1) ∧
    exec (.switchD (smp.testBit 1)) s = .next t ∧ exec (.sample smp) s = .next t

/-- R66: a SAMPLE step is exactly the operation `decode_op` selects. The left side is the pseudocode of
R76, the right side that of R82 to R91; every state and every sample, halted states included. -/
def Obligations.SampleStepIsTheSelectedOperation : Prop :=
  ∀ (s : State) (smp : Nat), exec (.sample smp) s = exec (decodeOp s.dec.view smp) s

/-- R81: the two last statements of every SAMPLE step that does not fault. -/
def Obligations.TimingAfterEverySample : Prop :=
  ∀ (cfg : Config) (d : Decoder) (smp : Nat), cfg.wf = true → d.run = .run →
    let d' := (eventStep cfg d (.sample smp)).dec
    d'.run = .run →
      d'.lastP2 = tri (smp.testBit 4) ∧
      (accepts d smp = true → d'.sinceLast = 1) ∧
      (accepts d smp = false →
        (cfg.slMax = .inf → d'.sinceLast = d.sinceLast + 1) ∧
        (∀ m, cfg.slMax = .finite m → d'.sinceLast = min (d.sinceLast + 1) m))

/-- R134: only BIT_C and BIT_D fault, exactly on a full accumulator, and the fault writes `run` and
`fault_cause` (code 1), emits nothing, and stays until RESET. -/
def Obligations.OverflowOnlyOnFullAccumulator : Prop :=
  ∀ (cfg : Config) (d : Decoder) (smp : Nat), cfg.wf = true → d.run = .run →
    let w := eventStep cfg d (.sample smp)
    let isBit := (∃ b, decodeOp d.view smp = .bitC b) ∨ (∃ b, decodeOp d.view smp = .bitD b)
    (w.dec.run = .haltFault ↔ isBit ∧ cfg.bitsCap = .finite d.bits.length) ∧
    (w.dec.run = .haltFault →
      w.out = [] ∧ ∃ m, w.dec = { d with run := .haltFault, faultCause := .accOverflow, n := m }) ∧
    (w.dec.run = .haltFault →
      causeCode w.dec.faultCause = 1 ∧ ∀ e : Event, e ≠ .reset → eventStep cfg w.dec e = beginWork w.dec) ∧
    (w.dec.run ≠ .haltFault → w.dec.run = .run)

/-- R92: the three outputs of a SAMPLE step, by operation, where the invariant of R93 to R95 holds; RESET
and INTERRUPT emit one line each, and no step more than two. -/
def Obligations.SampleStepEmitsOneOfThreeOutputs : Prop :=
  ∀ (cfg : Config) (d : Decoder) (smp : Nat), d.run = .run → Framed d →
    let out := (eventStep cfg d (.sample smp)).out
    (match decodeOp d.view smp with
    | .startC _ => out = [.blank, .start d.sinceLast]
    | .startD _ => out = [.blank, .start d.sinceLast]
    | .pwoLowEnd _ => out = [.data (lineChannel d.lastSync) (group d.bits)]
    | .switchC _ => out = [.data (lineChannel d.lastSync) (group d.bits)]
    | .switchD _ => out = [.data (lineChannel d.lastSync) (group d.bits)]
    | _ => out = []) ∧
    (eventStep cfg d .reset).out = [.banner] ∧ (eventStep cfg d .interrupt).out = [.final] ∧
    ∀ e : Event, (eventStep cfg d e).out.length ≤ 2

/-! ### Host events and cycles -/

/-- R127. -/
def Obligations.InterruptHaltsWithFinal : Prop :=
  ∀ s : State, s.dec.run = .run →
    let d : Decoder := { s.dec with bits := [], run := .haltOk }
    exec .interrupt s = .next { s with dec := d, outq := s.outq ++ [.final] } ∧
    halted d = true ∧ haltErr d = false ∧
    (∀ p rest, s.feed = p :: rest → s.outq = [] → p.rst = false → p.intr = true →
      step s = .next { s with dec := d, outq := [.final], feed := rest })

/-- R128. -/
def Obligations.SourceEndHaltsWithError : Prop :=
  ∀ s : State, s.dec.run = .run →
    let d : Decoder := { s.dec with bits := [], run := .haltErr }
    exec .sourceEnd s = .next { s with dec := d } ∧
    halted d = true ∧ haltErr d = true ∧
    (∀ p rest, s.feed = p :: rest → s.outq = [] → p.rst = false → p.intr = false →
      p.sEnd = true → step s = .next { s with dec := d, feed := rest })

/-- R129: in a halt state only RESET does anything. -/
def Obligations.HaltedBlockIgnoresEvents : Prop :=
  ∀ s : State, s.dec.run ≠ .run →
    exec .interrupt s = .next s ∧ exec .sourceEnd s = .next s ∧
    (∀ smp, exec (.sample smp) s = .next s) ∧
    (∀ rst, sReady s rst = false) ∧
    (∃ t, exec .reset s = .next t ∧ t.dec.run = .run)

/-- R130: a cycle on which no event is taken moves only the line handshake. -/
def Obligations.CycleWithoutEventKeepsTheRecord : Prop :=
  ∀ s : State, exec .idle s = .next s ∧
    (takenEvent s = none →
      ∃ t, step s = .next t ∧ t.dec = s.dec ∧ t.cfg = s.cfg ∧ emitted t = emitted s)

/-- R65: which event a cycle takes, and that an `intr` or `s_end` not taken is not remembered. -/
def Obligations.EventPriorityOfACycle : Prop :=
  ∀ (s : State) (p : Pins) (rest : List Pins), s.feed = p :: rest →
    (sReady s p.rst = true ↔ p.rst = false ∧ s.dec.run = .run ∧ s.outq = []) ∧
    (p.rst = true → takenEvent s = some .reset) ∧
    (p.rst = false → sReady s p.rst = true →
      (p.intr = true → takenEvent s = some .interrupt) ∧
      (p.intr = false → p.sEnd = true → takenEvent s = some .sourceEnd) ∧
      (p.intr = false → p.sEnd = false → p.sValid = true →
        takenEvent s = some (.sample p.sData)) ∧
      (p.intr = false → p.sEnd = false → p.sValid = false → takenEvent s = none)) ∧
    (p.rst = false → sReady s p.rst = false →
      takenEvent s = none ∧
      step s = step { s with feed := { p with intr := false, sEnd := false } :: rest })

/-- Derived (R65, R66, R74): a cycle that takes an event runs the instruction its pins decode to, on the
state with that cycle's pins used up; on a sample that is the operation the sample selects. -/
def Obligations.StepRunsTheDecodedInstruction : Prop :=
  ∀ (s : State) (p : Pins) (rest : List Pins), s.feed = p :: rest →
    (p.rst = true ∨ sReady s p.rst = true) →
    step s = exec (decodeCtl p) { s with feed := rest } ∧
    (decodeCtl p = .sample p.sData →
      step s = exec (decodeOp s.dec.view p.sData) { s with feed := rest })

/-- R57: `l_valid` in every cycle, and the handshake on a cycle with a line queued and `rst = 0`. -/
def Obligations.HandshakeMovesTheHeadOrNothing : Prop :=
  ∀ (s : State) (p : Pins) (rest : List Pins) (l : Line) (ls : List Line),
    s.feed = p :: rest → s.outq = l :: ls → p.rst = false →
    (∀ (s' : State) (rst : Bool), lValid s' rst = true ↔ rst = false ∧ s'.outq ≠ []) ∧
    linePort s p.rst = some (drive l) ∧ sReady s p.rst = false ∧ takenEvent s = none ∧
    (p.lReady = true →
      step s = .next { s with feed := rest, outq := ls, delivered := s.delivered ++ [l] }) ∧
    (p.lReady = false → step s = .next { s with feed := rest })

/-- Derived (R166): with the sink ready on every cycle, queued lines leave one per edge, and nothing
else changes until the queue is empty. -/
def Obligations.QueuedLinesLeaveOnePerEdge : Prop :=
  ∀ (s : State) (j : Nat), j ≤ s.outq.length → j ≤ s.feed.length →
    (∀ p ∈ s.feed.take j, p.rst = false ∧ p.lReady = true) →
    runCycles j s =
      { s with
        outq := s.outq.drop j
        delivered := s.delivered ++ s.outq.take j
        feed := s.feed.drop j }

/-- Derived (R142, R129): without `rst`, a halted block keeps its record and its lines for ever. Cycles
past the feed have every pin low, the model's choice (log entry 2). -/
def Obligations.OnlyResetLeavesAHalt : Prop :=
  ∀ (s : State) (k : Nat), s.dec.run ≠ .run → noReset s →
    (runCycles k s).dec = s.dec ∧ emitted (runCycles k s) = emitted s ∧ eventsTaken k s = []

/-- Derived (R73, R74, R52; 92_eei_decisions.md D1, D2): the cycle level refines the abstract machine.
The record after any number of cycles is that of the abstract machine on the events taken, and while no
RESET drops a queued line the lines are its lines, in order. Cycles past the feed have every pin low, the
model's choice (log entry 2). -/
def Obligations.CyclesRefineTheAbstractMachine : Prop :=
  ∀ (s : State) (k : Nat),
    let w := runEvents s.cfg s.dec (eventsTaken k s)
    (runCycles k s).dec = w.dec ∧
    (noReset s → emitted (runCycles k s) = emitted s ++ w.out)

/-! ### Encoding -/

/-- R68: for every sample and every state exactly one row of the table of R67 applies, and it gives the
operation `decode_op` returns. -/
def Obligations.OperationTablePartitionsSamples : Prop :=
  ∀ (v : View) (smp : Nat),
    (opTable.filter (OpRow.applies v smp)).map (fun r => r.op (extract smp)) = [decodeOp v smp]

/-- Derived (R64, R65, opcode_table.json): the five CTL4 rows partition the values of the event inputs
and give the event of the priority order. -/
def Obligations.EventTablePartitionsInputs : Prop :=
  ∀ p : Pins,
    (ctlTable.filter (fun r => decide (ctlWord p &&& r.mask = r.pat))).map (fun r => r.event p.sData) =
      [decodeCtl p]

/-- Derived (R59, R65, R67): words written out from the encodings, bit 7 to bit 0, one or more of each
format, decode to the instruction they stand for. The `s_data` word above the four CTL4 bits is the
model's numbering (log entry 5), and so is the rejection of a word wider than a sample (log entry 14). -/
def Obligations.WordsDecodeAsTheTableSays : Prop :=
  decode Config.reference .atReset .smp8 0b00010000 = .ok (.pwoLowIdle true) ∧
  decode Config.reference .atReset .smp8 0b10100110 = .ok .strobeLow ∧
  decode Config.reference .atReset .smp8 0b10110100 = .ok (.startC true) ∧
  decode Config.reference .atReset .smp8 0b00110100 = .ok (.startD false) ∧
  decode Config.reference ⟨true, .f, .t⟩ .smp8 0b10110010 = .ok (.bitC false) ∧
  decode Config.reference ⟨true, .f, .t⟩ .smp8 0b00110010 = .ok (.switchD true) ∧
  decode Config.reference .atReset .ctl4 0b1000 = .ok .reset ∧
  decode Config.reference .atReset .ctl4 0b0110 = .ok .interrupt ∧
  decode Config.reference .atReset .ctl4 0b0011 = .ok .sourceEnd ∧
  decode Config.reference .atReset .ctl4 0b001100100001 = .ok (.sample 0b00110010) ∧
  decode Config.reference .atReset .smp8 0b100000000 = .error .sampleTooWide

/-- Derived (R62, R65, R67): decoding the encoding of a well-formed instruction gives it back, in every
state that meets the row's condition, with every operand. -/
def Obligations.DecodeOfEncodeIsTheInstruction : Prop :=
  ∀ (c : Config) (v : View) (i : Instr), c.wf = true → i.wf c = true → i.selectable v = true →
    decode c v (encode i).1 (encode i).2 = .ok i

/-- Derived (R60, R62, R66, R67, R79): the canonical sample of the operation a sample selects has the same
effect as the sample itself. It keeps only the bits the operation's row reads. -/
def Obligations.CanonicalSampleHasTheSameEffect : Prop :=
  ∀ (s : State) (smp : Nat),
    exec (.sample (encode (decodeOp s.dec.view smp)).2) s = exec (.sample smp) s

/-- R60: two samples that agree on bits 1, 2, 4, 5 and 7 give the same step. -/
def Obligations.UnusedSampleBitsChangeNothing : Prop :=
  ∀ (s : State) (a b : Nat), (∀ k ∈ [1, 2, 4, 5, 7], a.testBit k = b.testBit k) →
    exec (.sample a) s = exec (.sample b) s

/-- R59: a signal is true exactly when `(smp AND mask) != 0`. -/
def Obligations.SignalsAreTheMaskedBits : Prop :=
  ∀ smp : Nat,
    ((extract smp).pwo = true ↔ smp &&& 0x20 ≠ 0) ∧ ((extract smp).p2 = true ↔ smp &&& 0x10 ≠ 0) ∧
    ((extract smp).sync = true ↔ smp &&& 0x80 ≠ 0) ∧ ((extract smp).isa = true ↔ smp &&& 0x04 ≠ 0) ∧
    ((extract smp).iwa = true ↔ smp &&& 0x02 ≠ 0)

/-! ### Properties of runs of samples -/

/-- R99: `since_last` counts from the latest accepted bit, or from RESET, up to `SL_MAX`. -/
def Obligations.CountIsSamplesSinceTheLastAcceptedBit : Prop :=
  ∀ (cfg : Config) (smps : List Nat),
    let d := (runSamples cfg Decoder.initial smps).dec
    let as := acceptances cfg Decoder.initial smps
    d.run = .run →
      as.length = smps.length ∧
      (∀ k : Nat, as[k]? = some true → (∀ i : Nat, k < i → as[i]? ≠ some true) →
        (cfg.slMax = .inf → d.sinceLast = smps.length - k) ∧
        (∀ m, cfg.slMax = .finite m → d.sinceLast = min m (smps.length - k))) ∧
      ((∀ i : Nat, as[i]? ≠ some true) →
        (cfg.slMax = .inf → d.sinceLast = smps.length) ∧
        (∀ m, cfg.slMax = .finite m → d.sinceLast = min m smps.length))

/-- Derived (R103, R100): no bit is lost, invented, reordered or given to the other channel. Over any
samples, the bits of the lines emitted and then the bits held are the bits held before and then the bits
accepted, each with its channel. -/
def Obligations.LinesAndHeldBitsAreTheAcceptedBits : Prop :=
  ∀ (cfg : Config) (d : Decoder) (smps : List Nat), Framed d →
    let w := runSamples cfg d smps
    w.dec.run = .run →
      w.out.flatMap lineBits ++ heldBits w.dec = heldBits d ++ acceptedBits cfg d smps

/-- R101: the first `pwo`-low sample of a command flushes once and ends it; until another bit is
accepted nothing more is emitted. -/
def Obligations.CommandEndFlushesExactlyOnce : Prop :=
  ∀ (cfg : Config) (d : Decoder) (smp : Nat) (smps : List Nat),
    d.run = .run → Framed d → d.inCommand = true → smp.testBit 5 = false →
    let d' := (eventStep cfg d (.sample smp)).dec
    (∀ a ∈ acceptances cfg d' smps, a = false) →
      d'.inCommand = false ∧
      (eventStep cfg d (.sample smp)).out = [.data (lineChannel d.lastSync) (group d.bits)] ∧
      (runSamples cfg d' smps).out = [] ∧ (runSamples cfg d' smps).dec.inCommand = false

/-- Derived (R102): a command begins only at a strobe edge while `pwo` is true. -/
def Obligations.NoEdgeMeansNoCommand : Prop :=
  ∀ (cfg : Config) (d : Decoder) (smps : List Nat), d.inCommand = false →
    (∀ a ∈ acceptances cfg d smps, a = false) →
    (runSamples cfg d smps).out = [] ∧ (runSamples cfg d smps).dec.inCommand = false

/-- Derived (R156, R157, R159): while `p2` stays true no further bit is accepted, whatever `pwo`, `sync`
and the data lines do. -/
def Obligations.HeldStrobeAcceptsNoFurtherBit : Prop :=
  ∀ (cfg : Config) (d : Decoder) (smps : List Nat), d.lastP2 = .t →
    (∀ smp ∈ smps, smp.testBit 4 = true) →
    (∀ a ∈ acceptances cfg d smps, a = false) ∧ acceptedBits cfg d smps = []

/-- R98: in Idle, `last_sync` cannot be learnt from the output of any later events, and the two states
stay equal except in it until a command starts or a RESET, and are equal from then on. -/
def Obligations.LastSyncIsInvisibleInIdle : Prop :=
  ∀ (cfg : Config) (d : Decoder) (x : Tri) (es : List Event),
    d.inCommand = false → d.bits = [] →
    let w := runEvents cfg d es
    let w' := runEvents cfg { d with lastSync := x } es
    w'.out = w.out ∧ { w'.dec with lastSync := .u } = { w.dec with lastSync := .u } ∧
    ((∃ k, Line.start k ∈ w.out) → w'.dec = w.dec)

/-! ### Grouping -/

/-- R111. -/
def Obligations.GroupingLaw : Prop :=
  ∀ bs : List Bool, bs ≠ [] →
    (group bs).flatten = bs ∧
    (bs.length % 8 = 2 → (group bs).map List.length = 2 :: List.replicate (bs.length / 8) 8) ∧
    (bs.length % 8 = 0 → (group bs).map List.length = List.replicate (bs.length / 8) 8) ∧
    (bs.length % 8 ≠ 2 → bs.length % 8 ≠ 0 →
      (group bs).map List.length = List.replicate (bs.length / 8) 8 ++ [bs.length % 8])

/-- R115: the groups are the given fields of `acc`, whatever `acc` holds at and above `acc_len`. -/
def Obligations.HardwareGroupingAgrees : Prop :=
  ∀ (acc : Nat → Bool) (d : Decoder), d.bits ≠ [] → AccHolds acc d →
    hwGroups acc (accLen d) = group d.bits

/-- R35: appending and clearing on `acc` and `acc_len` keep them the bits held. -/
def Obligations.HardwareAccumulatorHoldsTheBits : Prop :=
  ∀ (acc : Nat → Bool) (cfg : Config) (b : Bool) (w w' : Work), AccHolds acc w.dec →
    (append cfg b w = .ok w' →
      AccHolds (Function.update acc (accLen w.dec) b) w'.dec ∧ accLen w'.dec = accLen w.dec + 1) ∧
    AccHolds acc (flush w).dec ∧ accLen (flush w).dec = 0

/-! ### Ports -/

/-- R125: the fields of a line on the port; a `Data` line's groups are fixed by `l_count` and `l_bits`. -/
def Obligations.LinePortCarriesTheLine : Prop :=
  drive .banner = ⟨0, false, 0, 0⟩ ∧ drive .blank = ⟨1, false, 0, 0⟩ ∧
  (∀ k, drive (.start k) = ⟨2, false, k, 0⟩) ∧ drive .final = ⟨4, false, 0, 0⟩ ∧
  (∀ (p : Channel) (bs : List Bool), bs ≠ [] →
    let port := drive (.data p (group bs))
    port.kind = 3 ∧ (port.channel = true ↔ p = .c) ∧ port.count = bs.length ∧
    (∀ i, (h : i < bs.length) → port.bits.testBit i = bs[i]) ∧
    (∀ i, bs.length ≤ i → port.bits.testBit i = false) ∧
    group ((List.range port.count).map port.bits.testBit) = group bs) ∧
  (∀ l, (drive l).kind.toNat ≤ 4)

/-- Derived (R8, R125): in a finite instance the head line fits the widths of `l_count` and `l_bits`. -/
def Obligations.LinePortFitsItsWidths : Prop :=
  ∀ (s : State) (a b : Nat) (rst : Bool) (port : LinePort), s.cfg.wf = true →
    s.cfg.slMax = .finite a → s.cfg.bitsCap = .finite b → Inv s → linePort s rst = some port →
    port.count < 2 ^ s.cfg.cw ∧ port.bits < 2 ^ b

/-- Derived (R22, R35): in a finite instance the counters fit the register widths the spec gives. -/
def Obligations.CountersFitTheirRegisters : Prop :=
  ∀ s : State, Inv s →
    (∀ m, s.cfg.slMax = .finite m → s.dec.sinceLast < 2 ^ regWidth m) ∧
    (∀ m, s.cfg.bitsCap = .finite m → accLen s.dec < 2 ^ regWidth m)

/-- Derived (R36, R37, R137, R138): the hardware codes, none shared, `0b01` never a `Tri`; and the status
outputs of each run state. -/
def Obligations.HardwareCodesAndStatusOutputs : Prop :=
  (∀ a b : Tri, triCode a = triCode b → a = b) ∧ (∀ a : Tri, triCode a ≠ 0b01) ∧
  (∀ a b : RunState, runCode a = runCode b → a = b) ∧
  (∀ a b : FaultCause, causeCode a = causeCode b → a = b) ∧
  (∀ s : State, Inv s →
    (halted s.dec = true ↔ runCode s.dec.run ≠ 0b00) ∧
    (haltErr s.dec = true ↔ (runCode s.dec.run).getLsbD 1 = true) ∧
    (faultOut s.dec = true ↔ runCode s.dec.run = 0b11) ∧
    (causeCode s.dec.faultCause = 1 ↔ faultOut s.dec = true))

/-! ### Invariants and frames -/

/-- Derived (R22, R26, R28, R38, R93 to R96): every step keeps the invariant, from every state that meets
it, with every configuration and every input. -/
def Obligations.StepKeepsTheInvariant : Prop :=
  ∀ s t : State, Inv s → step s = .next t → Inv t

/-- Derived (R61, R68, R133): no step and no instruction stops the machine, in any state. The model's
choices it rests on: log entry 7 (an operation outside its row's condition), log entry 9 (no refusal in
an unreachable state, which I12 would allow), log entry 17 (ACC_OVERFLOW is a next state). -/
def Obligations.EveryStepAnswersANextState : Prop :=
  (∀ s : State, ∃ t, step s = .next t ∧ t.cfg = s.cfg ∧ t.feed = s.feed.tail) ∧
  (∀ (i : Instr) (s : State), ∃ t, exec i s = .next t)

/-- Derived (R9): without a capacity the fault state is never entered. Cycles past the feed have every pin
low, the model's choice (log entry 2). -/
def Obligations.NoFaultAtTheReferenceConfiguration : Prop :=
  ∀ (s : State) (k : Nat), s.cfg.bitsCap = .inf → s.dec.run ≠ .haltFault →
    (runCycles k s).dec.run ≠ .haltFault

/-- Derived (R3, R14, R29): no instruction writes the parameters, the inputs to come or what the sink
has, and every instruction but RESET only adds lines behind those queued. -/
def Obligations.InstructionsLeaveInterfacesUnchanged : Prop :=
  ∀ (i : Instr) (s t : State), exec i s = .next t →
    t.cfg = s.cfg ∧ t.feed = s.feed ∧ t.delivered = s.delivered ∧
    (i ≠ .reset → ∃ ls, t.outq = s.outq ++ ls)

/-- Derived (R33, R82 to R85): the frame of PWO_LOW_IDLE, STROBE_LOW, STROBE_HELD and PWO_LOW_END. In a
state outside the row's condition the effect is the model's choice (log entry 7). -/
def Obligations.FrameOfOperationsWithoutABit : Prop :=
  ∀ (p2 : Bool) (s t : State),
    (∀ i ∈ [Instr.pwoLowIdle p2, .strobeLow, .strobeHeld], exec i s = .next t →
      t.outq = s.outq ∧ t.dec.bits = s.dec.bits ∧ t.dec.lastSync = s.dec.lastSync ∧
      t.dec.run = s.dec.run ∧ t.dec.faultCause = s.dec.faultCause ∧
      (s.dec.inCommand = false ∨ i ≠ .pwoLowIdle p2 → t.dec.inCommand = s.dec.inCommand)) ∧
    (exec (.pwoLowEnd p2) s = .next t →
      t.dec.lastSync = s.dec.lastSync ∧ t.dec.run = s.dec.run ∧
      t.dec.faultCause = s.dec.faultCause)

/-- Derived (R33, R86 to R91): the frame of the six operations that accept a bit. In a state outside the
row's condition the effect is the model's choice (log entry 7). -/
def Obligations.FrameOfOperationsWithABit : Prop :=
  ∀ (b : Bool) (s t : State), s.cfg.wf = true →
    (∀ i ∈ [Instr.bitC b, .bitD b], exec i s = .next t →
      t.outq = s.outq ∧ t.dec.inCommand = s.dec.inCommand ∧ t.dec.lastSync = s.dec.lastSync ∧
      (s.cfg.bitsCap ≠ .finite s.dec.bits.length →
        t.dec.run = s.dec.run ∧ t.dec.faultCause = s.dec.faultCause) ∧
      (s.cfg.bitsCap = .finite s.dec.bits.length →
        t.dec.bits = s.dec.bits ∧ t.dec.lastP2 = s.dec.lastP2 ∧
        t.dec.sinceLast = s.dec.sinceLast)) ∧
    (∀ i ∈ [Instr.startC b, .startD b], exec i s = .next t →
      t.dec.run = s.dec.run ∧ t.dec.faultCause = s.dec.faultCause) ∧
    (∀ i ∈ [Instr.switchC b, .switchD b], exec i s = .next t →
      t.dec.inCommand = s.dec.inCommand ∧ t.dec.run = s.dec.run ∧
      t.dec.faultCause = s.dec.faultCause)

/-- Derived (R127, R128, R141): the frame of INTERRUPT and SOURCE_END. -/
def Obligations.FrameOfHaltingEvents : Prop :=
  ∀ (i : Instr) (s t : State), i = .interrupt ∨ i = .sourceEnd → exec i s = .next t →
    t.dec.sinceLast = s.dec.sinceLast ∧ t.dec.lastP2 = s.dec.lastP2 ∧
    t.dec.lastSync = s.dec.lastSync ∧ t.dec.inCommand = s.dec.inCommand ∧
    t.dec.faultCause = s.dec.faultCause ∧ t.dec.n = s.dec.n ∧
    (i = .sourceEnd → t.outq = s.outq)

/-! ### Text -/

/-- R118: `round_half_even` of the value in millionths. -/
def Obligations.MicrosRoundHalfToEven : Prop :=
  ∀ v : ℚ≥0,
    |(micros v : ℚ) - (v : ℚ) * 1000000| ≤ 1 / 2 ∧
    (|(micros v : ℚ) - (v : ℚ) * 1000000| = 1 / 2 → micros v % 2 = 0)

/-- Derived (R118): the default text of a time is the decimal digits of its whole seconds, with no
leading zero, a point, and exactly six digits of its millionths. -/
def Obligations.DefaultTimeTextIsSixDecimals : Prop :=
  ∀ v : ℚ≥0, ∃ ip fp : List Nat,
    fmt6Default v = digitText ip ++ [0x2E] ++ digitText fp ∧
    (∀ d ∈ ip ++ fp, d < 10) ∧ ip ≠ [] ∧ (ip.head? = some 0 → ip = [0]) ∧ fp.length = 6 ∧
    Nat.ofDigits 10 ip.reverse * 1000000 + Nat.ofDigits 10 fp.reverse = micros v

/-- R117, with the default `fmt6`: every line is printable ASCII characters and then one `LF`. -/
def Obligations.EveryLineIsPrintableThenLineFeed : Prop :=
  ∀ (period : ℚ≥0) (l : Line), ∃ body : Text,
    render fmt6Default period l = body ++ [0x0A] ∧
    ∀ b ∈ body, 0x20 ≤ b.toNat ∧ b.toNat ≤ 0x7E

/-- R119 to R123, with the bytes of the fixed characters written out; no emitted `Data` line is without a
group. -/
def Obligations.RenderedRecordsHaveTheGivenBytes : Prop :=
  ∀ (fmt6 : ℚ≥0 → Text) (period : ℚ≥0),
    render fmt6 period .banner =
      [0x73, 0x61, 0x6D, 0x70, 0x6C, 0x69, 0x6E, 0x67, 0x20, 0x65, 0x76, 0x65, 0x72, 0x79, 0x20]
        ++ fmt6 period ++ [0x73, 0x0A] ∧
    render fmt6 period .blank = [0x0A] ∧
    (∀ k : Nat, render fmt6 period (.start k) =
      [0x53, 0x20, 0x2B] ++ fmt6 ((k : ℚ≥0) * period) ++ [0x73, 0x0A]) ∧
    (∀ (p : Channel) (gs : List (List Bool)), render fmt6 period (.data p gs) =
      (if p = .c then 0x43 else 0x44) ::
        (gs.map (fun g => 0x20 :: g.map (fun b => if b then 0x31 else 0x30))).flatten ++ [0x0A]) ∧
    render fmt6 period .final = [0x0A] ∧
    (∀ (cfg : Config) (d : Decoder) (e : Event) (p : Channel) (gs : List (List Bool)),
      Line.data p gs ∈ (eventStep cfg d e).out → gs ≠ [])

/-! ### Runs -/

/-- Derived (R143, R124, R138): a run ends at its first step that leaves `run != RUN`, and what it yields.
The first run of RESET and then any events covers the events up to the first halt or the next RESET. A
run is finished exactly in HALT_OK or HALT_ERR, and a prefix exactly in RUN. The run a state of the cycle
level is in is the last run of the events taken. That a RESET begins another run is log entry 23; cycles
past the feed have every pin low (log entry 2), and the lines taken are the model's record (log entry
3). -/
def Obligations.RunEndsAtItsFirstHalt : Prop :=
  (∀ (cfg : Config) (es : List Event), ∃ (r : Work) (done rest : List Event),
    (runsOf cfg (.reset :: es)).head? = some r ∧ es = done ++ rest ∧ Event.reset ∉ done ∧
    r = { dec := (runEvents cfg Decoder.initial done).dec,
          out := .banner :: (runEvents cfg Decoder.initial done).out } ∧
    (∀ k, k < done.length → (runEvents cfg Decoder.initial (done.take k)).dec.run = .run) ∧
    (∀ e, rest.head? = some e → r.dec.run ≠ .run ∨ e = .reset)) ∧
  (∀ (fmt6 : ℚ≥0 → Text) (period : ℚ≥0) (r : Work),
    let y := yieldOf fmt6 period r
    y.text = (r.out.map (render fmt6 period)).flatten ∧ y.run = r.dec.run ∧
    (y.halted = true ↔ r.dec.run ≠ .run) ∧
    (y.haltErr = true ↔ r.dec.run = .haltErr ∨ r.dec.run = .haltFault) ∧
    (y.fault = true ↔ r.dec.run = .haltFault) ∧
    (y.ended = .finished ↔ r.dec.run = .haltOk ∨ r.dec.run = .haltErr) ∧
    (y.ended = .unfinished ↔ r.dec.run = .run)) ∧
  (∀ (s : State) (k : Nat),
    (runsFrom s.cfg (currentRun s) (eventsTaken k s)).getLast? = some (currentRun (runCycles k s)))

end
end

