-- ==== Sys2Proof/Laws/State.lean ====
section
/-! SUPPORT. The small lemmas of the record updates: what each named update does to each field, so that
no later proof unfolds one. -/
namespace Sys2Proof.Machine

/-! ### `setInCommand` -/

@[simp] theorem setInCommand_sinceLast (b : Bool) (w : Work) : (setInCommand b w).dec.sinceLast = w.dec.sinceLast := rfl
@[simp] theorem setInCommand_lastP2 (b : Bool) (w : Work) : (setInCommand b w).dec.lastP2 = w.dec.lastP2 := rfl
@[simp] theorem setInCommand_lastSync (b : Bool) (w : Work) : (setInCommand b w).dec.lastSync = w.dec.lastSync := rfl
@[simp] theorem setInCommand_inCommand (b : Bool) (w : Work) : (setInCommand b w).dec.inCommand = b := rfl
@[simp] theorem setInCommand_bits (b : Bool) (w : Work) : (setInCommand b w).dec.bits = w.dec.bits := rfl
@[simp] theorem setInCommand_run (b : Bool) (w : Work) : (setInCommand b w).dec.run = w.dec.run := rfl
@[simp] theorem setInCommand_faultCause (b : Bool) (w : Work) : (setInCommand b w).dec.faultCause = w.dec.faultCause := rfl
@[simp] theorem setInCommand_n (b : Bool) (w : Work) : (setInCommand b w).dec.n = w.dec.n := rfl
@[simp] theorem setInCommand_out (b : Bool) (w : Work) : (setInCommand b w).out = w.out := rfl

/-! ### `setLastSync` -/

@[simp] theorem setLastSync_sinceLast (v : Tri) (w : Work) : (setLastSync v w).dec.sinceLast = w.dec.sinceLast := rfl
@[simp] theorem setLastSync_lastP2 (v : Tri) (w : Work) : (setLastSync v w).dec.lastP2 = w.dec.lastP2 := rfl
@[simp] theorem setLastSync_lastSync (v : Tri) (w : Work) : (setLastSync v w).dec.lastSync = v := rfl
@[simp] theorem setLastSync_inCommand (v : Tri) (w : Work) : (setLastSync v w).dec.inCommand = w.dec.inCommand := rfl
@[simp] theorem setLastSync_bits (v : Tri) (w : Work) : (setLastSync v w).dec.bits = w.dec.bits := rfl
@[simp] theorem setLastSync_run (v : Tri) (w : Work) : (setLastSync v w).dec.run = w.dec.run := rfl
@[simp] theorem setLastSync_faultCause (v : Tri) (w : Work) : (setLastSync v w).dec.faultCause = w.dec.faultCause := rfl
@[simp] theorem setLastSync_n (v : Tri) (w : Work) : (setLastSync v w).dec.n = w.dec.n := rfl
@[simp] theorem setLastSync_out (v : Tri) (w : Work) : (setLastSync v w).out = w.out := rfl

/-! ### `setLastP2` -/

@[simp] theorem setLastP2_sinceLast (v : Tri) (w : Work) : (setLastP2 v w).dec.sinceLast = w.dec.sinceLast := rfl
@[simp] theorem setLastP2_lastP2 (v : Tri) (w : Work) : (setLastP2 v w).dec.lastP2 = v := rfl
@[simp] theorem setLastP2_lastSync (v : Tri) (w : Work) : (setLastP2 v w).dec.lastSync = w.dec.lastSync := rfl
@[simp] theorem setLastP2_inCommand (v : Tri) (w : Work) : (setLastP2 v w).dec.inCommand = w.dec.inCommand := rfl
@[simp] theorem setLastP2_bits (v : Tri) (w : Work) : (setLastP2 v w).dec.bits = w.dec.bits := rfl
@[simp] theorem setLastP2_run (v : Tri) (w : Work) : (setLastP2 v w).dec.run = w.dec.run := rfl
@[simp] theorem setLastP2_faultCause (v : Tri) (w : Work) : (setLastP2 v w).dec.faultCause = w.dec.faultCause := rfl
@[simp] theorem setLastP2_n (v : Tri) (w : Work) : (setLastP2 v w).dec.n = w.dec.n := rfl
@[simp] theorem setLastP2_out (v : Tri) (w : Work) : (setLastP2 v w).out = w.out := rfl

/-! ### `setSinceLast` -/

@[simp] theorem setSinceLast_sinceLast (k : Nat) (w : Work) : (setSinceLast k w).dec.sinceLast = k := rfl
@[simp] theorem setSinceLast_lastP2 (k : Nat) (w : Work) : (setSinceLast k w).dec.lastP2 = w.dec.lastP2 := rfl
@[simp] theorem setSinceLast_lastSync (k : Nat) (w : Work) : (setSinceLast k w).dec.lastSync = w.dec.lastSync := rfl
@[simp] theorem setSinceLast_inCommand (k : Nat) (w : Work) : (setSinceLast k w).dec.inCommand = w.dec.inCommand := rfl
@[simp] theorem setSinceLast_bits (k : Nat) (w : Work) : (setSinceLast k w).dec.bits = w.dec.bits := rfl
@[simp] theorem setSinceLast_run (k : Nat) (w : Work) : (setSinceLast k w).dec.run = w.dec.run := rfl
@[simp] theorem setSinceLast_faultCause (k : Nat) (w : Work) : (setSinceLast k w).dec.faultCause = w.dec.faultCause := rfl
@[simp] theorem setSinceLast_n (k : Nat) (w : Work) : (setSinceLast k w).dec.n = w.dec.n := rfl
@[simp] theorem setSinceLast_out (k : Nat) (w : Work) : (setSinceLast k w).out = w.out := rfl

/-! ### `setBits` -/

@[simp] theorem setBits_sinceLast (bs : List Bool) (w : Work) : (setBits bs w).dec.sinceLast = w.dec.sinceLast := rfl
@[simp] theorem setBits_lastP2 (bs : List Bool) (w : Work) : (setBits bs w).dec.lastP2 = w.dec.lastP2 := rfl
@[simp] theorem setBits_lastSync (bs : List Bool) (w : Work) : (setBits bs w).dec.lastSync = w.dec.lastSync := rfl
@[simp] theorem setBits_inCommand (bs : List Bool) (w : Work) : (setBits bs w).dec.inCommand = w.dec.inCommand := rfl
@[simp] theorem setBits_bits (bs : List Bool) (w : Work) : (setBits bs w).dec.bits = bs := rfl
@[simp] theorem setBits_run (bs : List Bool) (w : Work) : (setBits bs w).dec.run = w.dec.run := rfl
@[simp] theorem setBits_faultCause (bs : List Bool) (w : Work) : (setBits bs w).dec.faultCause = w.dec.faultCause := rfl
@[simp] theorem setBits_n (bs : List Bool) (w : Work) : (setBits bs w).dec.n = w.dec.n := rfl
@[simp] theorem setBits_out (bs : List Bool) (w : Work) : (setBits bs w).out = w.out := rfl

/-! ### `emit`, `beginWork`, `raiseFault` -/

@[simp] theorem emit_dec (l : Line) (w : Work) : (emit l w).dec = w.dec := rfl
@[simp] theorem emit_out (l : Line) (w : Work) : (emit l w).out = w.out ++ [l] := rfl
@[simp] theorem beginWork_dec (d : Decoder) : (beginWork d).dec = d := rfl
@[simp] theorem beginWork_out (d : Decoder) : (beginWork d).out = [] := rfl
@[simp] theorem raiseFault_sinceLast (c : FaultCause) (w : Work) : (raiseFault c w).dec.sinceLast = w.dec.sinceLast := rfl
@[simp] theorem raiseFault_lastP2 (c : FaultCause) (w : Work) : (raiseFault c w).dec.lastP2 = w.dec.lastP2 := rfl
@[simp] theorem raiseFault_lastSync (c : FaultCause) (w : Work) : (raiseFault c w).dec.lastSync = w.dec.lastSync := rfl
@[simp] theorem raiseFault_inCommand (c : FaultCause) (w : Work) : (raiseFault c w).dec.inCommand = w.dec.inCommand := rfl
@[simp] theorem raiseFault_bits (c : FaultCause) (w : Work) : (raiseFault c w).dec.bits = w.dec.bits := rfl
@[simp] theorem raiseFault_run (c : FaultCause) (w : Work) : (raiseFault c w).dec.run = .haltFault := rfl
@[simp] theorem raiseFault_faultCause (c : FaultCause) (w : Work) : (raiseFault c w).dec.faultCause = c := rfl
@[simp] theorem raiseFault_n (c : FaultCause) (w : Work) : (raiseFault c w).dec.n = w.dec.n := rfl
@[simp] theorem raiseFault_out (c : FaultCause) (w : Work) : (raiseFault c w).out = w.out := rfl

/-! ### `countSample` -/

@[simp] theorem countSample_sinceLast (d : Decoder) : (countSample d).sinceLast = d.sinceLast := rfl
@[simp] theorem countSample_lastP2 (d : Decoder) : (countSample d).lastP2 = d.lastP2 := rfl
@[simp] theorem countSample_lastSync (d : Decoder) : (countSample d).lastSync = d.lastSync := rfl
@[simp] theorem countSample_inCommand (d : Decoder) : (countSample d).inCommand = d.inCommand := rfl
@[simp] theorem countSample_bits (d : Decoder) : (countSample d).bits = d.bits := rfl
@[simp] theorem countSample_run (d : Decoder) : (countSample d).run = d.run := rfl
@[simp] theorem countSample_faultCause (d : Decoder) : (countSample d).faultCause = d.faultCause := rfl
@[simp] theorem countSample_n (d : Decoder) : (countSample d).n = d.n + 1 := rfl

/-! ### The whole state -/

@[simp] theorem absorb_cfg (s : State) (w : Work) : (absorb s w).cfg = s.cfg := rfl
@[simp] theorem absorb_dec (s : State) (w : Work) : (absorb s w).dec = w.dec := rfl
@[simp] theorem absorb_outq (s : State) (w : Work) : (absorb s w).outq = s.outq ++ w.out := rfl
@[simp] theorem absorb_feed (s : State) (w : Work) : (absorb s w).feed = s.feed := rfl
@[simp] theorem absorb_delivered (s : State) (w : Work) : (absorb s w).delivered = s.delivered := rfl
@[simp] theorem nextCycle_cfg (s : State) : (nextCycle s).cfg = s.cfg := rfl
@[simp] theorem nextCycle_dec (s : State) : (nextCycle s).dec = s.dec := rfl
@[simp] theorem nextCycle_outq (s : State) : (nextCycle s).outq = s.outq := rfl
@[simp] theorem nextCycle_feed (s : State) : (nextCycle s).feed = s.feed.tail := rfl
@[simp] theorem nextCycle_delivered (s : State) : (nextCycle s).delivered = s.delivered := rfl

/-! ### The view the decoder reads -/

@[simp] theorem view_inCommand (d : Decoder) : d.view.inCommand = d.inCommand := rfl
@[simp] theorem view_lastP2 (d : Decoder) : d.view.lastP2 = d.lastP2 := rfl
@[simp] theorem view_lastSync (d : Decoder) : d.view.lastSync = d.lastSync := rfl

end Sys2Proof.Machine
end

