-- ==== Sys2Proof/Laws/Ops.lean ====
section
/-! SUPPORT. One lemma for each shared operation that says everything it can do, for the provers to cite
instead of unfolding it. -/
namespace Sys2Proof.Machine

@[simp] theorem tri_ne_u (b : Bool) : tri b ≠ .u := by cases b <;> decide

@[simp] theorem tri_eq_t (b : Bool) : tri b = .t ↔ b = true := by cases b <;> decide

@[simp] theorem tri_eq_f (b : Bool) : tri b = .f ↔ b = false := by cases b <;> decide

/-- The edge detector is true exactly on a true `p2` after a `last_p2` that is not `T`. -/
theorem edge_eq_true (p2 : Bool) (v : Tri) : edge p2 v = true ↔ p2 = true ∧ v ≠ .t := by
  simp [edge]

/-- The saturating count stays within `SL_MAX`. -/
theorem sat_allowed (cfg : Config) (k : Nat) : cfg.slMax.allows (sat cfg k) = true := by
  unfold sat
  cases h : cfg.slMax <;> simp [Limit.allows]

/-- With `SL_MAX` at least 1 the first count after an accepted bit is 1. -/
theorem sat_one (cfg : Config) (h : cfg.slMax.positive = true) : sat cfg 1 = 1 := by
  unfold sat
  cases hm : cfg.slMax with
  | inf => rfl
  | finite m => simp [Limit.positive, hm] at h; simpa using h

/-- The parameters in range give a positive `SL_MAX`. -/
theorem slMax_positive {cfg : Config} (h : cfg.wf = true) : cfg.slMax.positive = true := by
  simp [Config.wf] at h; exact h.1.1.2

/-- The parameters in range give a positive `BITS_CAP`. -/
theorem bitsCap_positive {cfg : Config} (h : cfg.wf = true) : cfg.bitsCap.positive = true := by
  simp [Config.wf] at h; exact h.1.2

/-- The accumulator is full exactly when its length is the capacity. -/
theorem full_eq_true (cfg : Config) (bs : List Bool) :
    full cfg bs = true ↔ cfg.bitsCap = .finite bs.length := by
  unfold full
  cases cfg.bitsCap with
  | inf => simp
  | finite n => simp [eq_comm]

/-- An empty accumulator is never full when `BITS_CAP` is at least 1. -/
theorem full_nil {cfg : Config} (h : cfg.bitsCap.positive = true) : full cfg [] = false := by
  unfold full
  cases hm : cfg.bitsCap with
  | inf => rfl
  | finite n => simp [Limit.positive, hm] at h; simp; omega

/-- Everything `flush` can do: with no bit held it changes nothing; otherwise it emits one line and
empties `bits`. -/
theorem flush_spec (w : Work) :
    (flush w).dec = { w.dec with bits := [] } ∧
    (flush w).out = w.out ++
      (if w.dec.bits = [] then [] else [.data (lineChannel w.dec.lastSync) (group w.dec.bits)]) := by
  unfold flush
  split <;> simp_all [setBits, emit]

/-- Everything `finishSample` does. -/
theorem finishSample_spec (cfg : Config) (p2 : Bool) (w : Work) :
    (finishSample cfg p2 w).dec =
        { w.dec with lastP2 := tri p2, sinceLast := sat cfg (w.dec.sinceLast + 1) } ∧
    (finishSample cfg p2 w).out = w.out := ⟨rfl, rfl⟩

/-- Everything `acceptBit` can do: the fault on a full accumulator, or the appended bit and the count
begun again. It emits nothing. -/
theorem acceptBit_spec (cfg : Config) (p2 b : Bool) (w : Work) :
    (acceptBit cfg p2 b w).out = w.out ∧
    (acceptBit cfg p2 b w).dec =
      if full cfg w.dec.bits then { w.dec with run := .haltFault, faultCause := .accOverflow }
      else { w.dec with bits := w.dec.bits ++ [b], lastP2 := tri p2, sinceLast := sat cfg 1 } := by
  cases hf : full cfg w.dec.bits <;> simp only [acceptBit, append, hf] <;> exact ⟨rfl, rfl⟩

/-- Everything `startCommand` does. -/
theorem startCommand_spec (w : Work) :
    (startCommand w).dec = { w.dec with inCommand := true, lastSync := .u } ∧
    (startCommand w).out = w.out ++ [.blank, .start w.dec.sinceLast] := by
  constructor
  · rfl
  · simp [startCommand, elapsed]

/-- Everything `enterChannel` can do. -/
theorem enterChannel_spec (sync : Bool) (w : Work) :
    (enterChannel sync w).dec = { w.dec with bits := [], lastSync := tri sync } ∧
    (enterChannel sync w).out = w.out ++
      (if w.dec.bits = [] then [] else [.data (lineChannel w.dec.lastSync) (group w.dec.bits)]) := by
  obtain ⟨hd, ho⟩ := flush_spec w
  exact ⟨by simp only [enterChannel, setLastSync, hd], by simpa only [enterChannel, setLastSync_out] using ho⟩

/-- A SAMPLE step answers a next state: the effect when running, nothing when halted. -/
theorem onSample_spec (s : State) (f : Work → Work) :
    onSample s f =
      .next (if s.dec.run = .run then absorb s (f (beginWork (countSample s.dec))) else s) := by
  unfold onSample
  split <;> rfl

/-- The handshake moves no line into or out of the emitted sequence. -/
theorem handshake_lines (r : Bool) (s : State) :
    (handshake r s).delivered ++ (handshake r s).outq = s.delivered ++ s.outq := by
  unfold handshake
  split <;> rename_i h
  · rfl
  · split <;> simp [h]

/-- The handshake touches only the queue and what the sink has. -/
theorem handshake_rest (r : Bool) (s : State) :
    (handshake r s).dec = s.dec ∧ (handshake r s).cfg = s.cfg ∧ (handshake r s).feed = s.feed := by
  unfold handshake
  split
  · exact ⟨rfl, rfl, rfl⟩
  · split <;> exact ⟨rfl, rfl, rfl⟩

end Sys2Proof.Machine
end

