-- ==== Sys2Proof/Laws/PerInstr.lean ====
section
/-! SUPPORT. The per-instruction family `EncodeMatchesTable`: the word an instruction encodes to carries the
bits its row of spec/opcode_table.json fixes, in the row's format. -/
namespace Sys2Proof.Laws

/-- The format, mask and match of the constructor's row of spec/opcode_table.json. -/
def tableRow : Instr → Format × Nat × Nat
  | .pwoLowIdle _ => (.smp8, 0x20, 0x00)
  | .pwoLowEnd _ => (.smp8, 0x20, 0x00)
  | .strobeLow => (.smp8, 0x30, 0x20)
  | .strobeHeld => (.smp8, 0x30, 0x30)
  | .startC _ => (.smp8, 0xB0, 0xB0)
  | .startD _ => (.smp8, 0xB0, 0x30)
  | .bitC _ => (.smp8, 0xB0, 0xB0)
  | .bitD _ => (.smp8, 0xB0, 0x30)
  | .switchC _ => (.smp8, 0xB0, 0xB0)
  | .switchD _ => (.smp8, 0xB0, 0x30)
  | .reset => (.ctl4, 0x8, 0x8)
  | .interrupt => (.ctl4, 0xC, 0x4)
  | .sourceEnd => (.ctl4, 0xE, 0x2)
  | .sample _ => (.ctl4, 0xF, 0x1)
  | .idle => (.ctl4, 0xF, 0x0)

/-- The encoding is in the row's format and has the row's fixed bits. -/
def EncodeMatchesTable.Statement (i : Instr) : Prop :=
  (encode i).1 = (tableRow i).1 ∧ (encode i).2 &&& (tableRow i).2.1 = (tableRow i).2.2

theorem EncodeMatchesTable.pwoLowIdle (p2 : Bool) : Statement (.pwoLowIdle p2) := by
  cases p2 <;> exact ⟨rfl, rfl⟩
theorem EncodeMatchesTable.pwoLowEnd (p2 : Bool) : Statement (.pwoLowEnd p2) := by
  cases p2 <;> exact ⟨rfl, rfl⟩
theorem EncodeMatchesTable.strobeLow : Statement .strobeLow := ⟨rfl, rfl⟩
theorem EncodeMatchesTable.strobeHeld : Statement .strobeHeld := ⟨rfl, rfl⟩
theorem EncodeMatchesTable.startC (isa : Bool) : Statement (.startC isa) := by
  cases isa <;> exact ⟨rfl, rfl⟩
theorem EncodeMatchesTable.startD (iwa : Bool) : Statement (.startD iwa) := by
  cases iwa <;> exact ⟨rfl, rfl⟩
theorem EncodeMatchesTable.bitC (isa : Bool) : Statement (.bitC isa) := by
  cases isa <;> exact ⟨rfl, rfl⟩
theorem EncodeMatchesTable.bitD (iwa : Bool) : Statement (.bitD iwa) := by
  cases iwa <;> exact ⟨rfl, rfl⟩
theorem EncodeMatchesTable.switchC (isa : Bool) : Statement (.switchC isa) := by
  cases isa <;> exact ⟨rfl, rfl⟩
theorem EncodeMatchesTable.switchD (iwa : Bool) : Statement (.switchD iwa) := by
  cases iwa <;> exact ⟨rfl, rfl⟩
theorem EncodeMatchesTable.reset : Statement .reset := ⟨rfl, rfl⟩
theorem EncodeMatchesTable.interrupt : Statement .interrupt := ⟨rfl, rfl⟩
theorem EncodeMatchesTable.sourceEnd : Statement .sourceEnd := ⟨rfl, rfl⟩
theorem EncodeMatchesTable.sample (smp : Nat) : Statement (.sample smp) := by
  refine ⟨rfl, ?_⟩
  simp only [encode, tableRow, ctlWord, eventPins]
  rw [show (0xF : Nat) = 2 ^ 4 - 1 from rfl, Nat.and_two_pow_sub_one_eq_mod]
  simp only [Bool.toNat_false, Bool.toNat_true]
  omega
theorem EncodeMatchesTable.idle : Statement .idle := ⟨rfl, rfl⟩

end Sys2Proof.Laws
end

