-- ==== Sys2Proof/Laws/Runs.lean ====
section
/-! SUPPORT. The small lemmas of Machine/Runs.lean. -/
namespace Sys2Proof.Machine

/-- A run in `RUN` takes the event; one that has ended stays as it is. -/
theorem runOn_spec (cfg : Config) (w : Work) (e : Event) :
    (w.dec.run = .run → (runOn cfg w e).dec = (eventStep cfg w.dec e).dec ∧
      (runOn cfg w e).out = w.out ++ (eventStep cfg w.dec e).out) ∧
    (w.dec.run ≠ .run → runOn cfg w e = w) := by
  unfold runOn
  split <;> simp_all

/-- A RESET ends the list's present run and begins another. -/
@[simp] theorem runsFrom_reset (cfg : Config) (w : Work) (es : List Event) :
    runsFrom cfg w (.reset :: es) = w :: runsFrom cfg hostReset es := rfl

/-- Every other event belongs to the present run. -/
theorem runsFrom_cons {e : Event} (h : e ≠ .reset) (cfg : Config) (w : Work) (es : List Event) :
    runsFrom cfg w (e :: es) = runsFrom cfg (runOn cfg w e) es := by
  simp [runsFrom, h]

/-- Lines without a `Banner` are added to the present run. -/
theorem linesSinceReset_append {ls : List Line} (h : .banner ∉ ls) (pre : List Line) :
    linesSinceReset (pre ++ ls) = linesSinceReset pre ++ ls := by
  induction pre with
  | nil =>
    cases ls with
    | nil => rfl
    | cons l ls => simp at h; simp [linesSinceReset, h.2]
  | cons l pre ih => by_cases hb : Line.banner ∈ pre <;> simp [linesSinceReset, hb, h, ih]

/-- A `Banner` at the end begins a run that holds only it. -/
@[simp] theorem linesSinceReset_banner (pre : List Line) :
    linesSinceReset (pre ++ [.banner]) = [.banner] := by
  induction pre with
  | nil => rfl
  | cons l pre ih => simp [linesSinceReset, ih]

end Sys2Proof.Machine
end

