-- ==== Sys2Proof/Tests/Slice0.lean ====
section
/-! SUPPORT. Tests and witnesses. Expected results are from spec/95_test_vectors.md (the vector is named)
or written out from the rule named. A theorem `witness_<statement>` shows a concrete input that meets
all hypotheses of that statement of Obligations.lean. -/
namespace Sys2Proof.Tests
open Sys2Proof.Machine

/-! ### Helpers -/

/-- `<ic, lp2, ls, sl, bits>` of 40_framing.md, `run = RUN`. -/
def dec (ic : Bool) (lp ls : Tri) (sl : Nat) (bits : List Bool) : Decoder :=
  { sinceLast := sl, lastP2 := lp, lastSync := ls, inCommand := ic, bits := bits, run := .run,
    faultCause := .none, n := 1 }

/-- A state with that record and nothing queued. -/
def at_ (d : Decoder) : State := { State.reset with dec := d, outq := [] }

/-- A finite configuration: `SL_MAX = 3`, `BITS_CAP = 2`. -/
def small : Config := { sampleWidth := 8, slMax := .finite 3, bitsCap := .finite 2, cw := 2 }

def pins (rst intr sEnd sValid : Bool) (smp : Nat) (lReady : Bool) : Pins :=
  { rst := rst, intr := intr, sEnd := sEnd, sValid := sValid, sData := smp, lReady := lReady }

/-- The record after a sample. -/
def decAfter (cfg : Config) (d : Decoder) (smp : Nat) : Decoder := (eventStep cfg d (.sample smp)).dec

/-- The state an outcome carries, or the reset state. -/
def nextOf (o : Host.Outcome State Fault Refusal) : State :=
  match o with
  | .next s => s
  | .fault _ => State.reset
  | .refused _ => State.reset

/-! ### Well-formedness -/

theorem test_wf_refuses_wide_sample :
    Instr.wf Config.reference (.sample 256) = false ∧ Instr.wf Config.reference (.sample 255) = true := by
  decide
theorem test_wf_refuses_wide_pins :
    Pins.wf Config.reference (pins false false false true 256 false) = false ∧
    Pins.wf Config.reference (pins false false false true 255 false) = true := by decide
theorem test_wf_refuses_narrow_width : Config.wf { Config.reference with sampleWidth := 7 } = false := by
  decide
theorem test_wf_refuses_zero_slMax : Config.wf { Config.reference with slMax := .finite 0 } = false := by
  decide
theorem test_wf_refuses_zero_bitsCap : Config.wf { Config.reference with bitsCap := .finite 0 } = false := by
  decide
theorem test_wf_refuses_narrow_count : Config.wf { small with cw := 1 } = false := by decide
theorem test_wf_accepts : Config.reference.wf = true ∧ small.wf = true := by decide

/-! ### Decoding: a word of each constructor, from R67 and opcode_table.json -/

theorem test_decode_pwoLowIdle : decodeOp ⟨false, .u, .u⟩ 0b00010000 = .pwoLowIdle true := by decide
theorem test_decode_pwoLowEnd : decodeOp ⟨true, .f, .f⟩ 0b10010110 = .pwoLowEnd true := by decide
theorem test_decode_strobeLow : decodeOp ⟨false, .t, .u⟩ 0b00100000 = .strobeLow := by decide
theorem test_decode_strobeHeld : decodeOp ⟨false, .t, .f⟩ 0b10110110 = .strobeHeld := by decide
theorem test_decode_startC : decodeOp ⟨false, .u, .u⟩ 0b10110100 = .startC true := by decide
theorem test_decode_startD : decodeOp ⟨false, .f, .t⟩ 0b00110100 = .startD false := by decide
theorem test_decode_bitC : decodeOp ⟨true, .f, .t⟩ 0b10110010 = .bitC false := by decide
theorem test_decode_bitD : decodeOp ⟨true, .f, .f⟩ 0b00110010 = .bitD true := by decide
theorem test_decode_switchC : decodeOp ⟨true, .f, .f⟩ 0b10110100 = .switchC true := by decide
theorem test_decode_switchD : decodeOp ⟨true, .f, .t⟩ 0b00110000 = .switchD false := by decide
theorem test_decode_events :
    decodeCtl (pinsOfWord .ctl4 0b1111) = .reset ∧ decodeCtl (pinsOfWord .ctl4 0b0111) = .interrupt ∧
    decodeCtl (pinsOfWord .ctl4 0b0011) = .sourceEnd ∧ decodeCtl (pinsOfWord .ctl4 0b0001) = .sample 0 ∧
    decodeCtl (pinsOfWord .ctl4 0b0000) = .idle := by decide
theorem test_decode_unused_bits : -- V1: 0x79 as 0x30, 0xCD as 0x84
    decodeOp .atReset 0x79 = .startD false ∧ decodeOp .atReset 0xCD = .pwoLowIdle false ∧
    decodeOp .atReset 0x130 = .startD false := by decide
theorem test_decode_rejects :
    decode Config.reference .atReset .smp8 0x130 = .error .sampleTooWide ∧
    decode Config.reference .atReset .ctl4 0x1001 = .error .dataTooWide := by decide
theorem test_canonical_samples : -- R62
    (encode (.startC true)).2 = 0xB4 ∧ (encode (.bitD true)).2 = 0x32 ∧
    (encode .strobeLow).2 = 0x20 ∧ (encode (.pwoLowIdle true)).2 = 0x10 := by decide

/-! ### Each operation (V4) -/

theorem test_pwoLowIdle_O3 :
    exec (.pwoLowIdle false) (at_ (dec false .f .t 10 [])) =
      .next (at_ { dec false .f .t 11 [] with n := 2 }) := by rfl
theorem test_pwoLowEnd_O4 :
    (nextOf (exec (.pwoLowEnd true) (at_ (dec true .f .f 2 [false, true])))).outq =
      [.data .d [[false, true]]] := by decide
theorem test_pwoLowEnd_loses_strobe_O5 :
    decAfter Config.reference (dec true .f .f 2 [false, true]) 0x12 =
      { dec false .t .f 3 [] with n := 2 } := by decide
theorem test_strobeLow_O7 :
    exec .strobeLow (at_ (dec true .t .f 1 [false])) =
      .next (at_ { dec true .f .f 2 [false] with n := 2 }) := by rfl
theorem test_strobeHeld_O10 :
    decAfter Config.reference (dec true .t .f 1 [true, true, false]) 0x36 =
      { dec true .t .f 2 [true, true, false] with n := 2 } := by decide
theorem test_startC_O11 :
    exec (.startC true) (at_ (dec false .f .f 3 [])) =
      .next { at_ { dec true .t .t 1 [true] with n := 2 } with outq := [.blank, .start 3] } := by rfl
theorem test_startD_O13 :
    (nextOf (exec (.startD false) { State.reset with outq := [] })).outq = [.blank, .start 0] := by decide
theorem test_startD_unreachable_V5 :
    (nextOf (exec (.startD false) (at_ (dec false .f .f 2 [true, true])))).outq =
      [.blank, .start 2, .data .d [[true, true]]] := by decide
theorem test_bitC_O15 :
    decAfter Config.reference (dec true .f .t 2 [true]) 0xB0 =
      { dec true .t .t 1 [true, false] with n := 2 } := by decide
theorem test_bitD_O18 :
    decAfter Config.reference (dec true .f .f 2 [false]) 0x34 =
      { dec true .t .f 1 [false, false] with n := 2 } := by decide
theorem test_bitD_overflow_V9 :
    let d := decAfter { small with bitsCap := .finite 1 } (dec true .f .f 2 [true]) 0x30
    d.run = .haltFault ∧ d.faultCause = .accOverflow ∧ d.bits = [true] ∧ d.lastP2 = .f ∧
      d.sinceLast = 2 := by decide
theorem test_switchC_V9_full :
    (nextOf (exec (.switchC true)
      { at_ (dec true .f .f 2 [true]) with cfg := { small with bitsCap := .finite 1 } })).dec =
      { dec true .t .t 1 [true] with n := 2 } := by decide
theorem test_switchC_unknown_V5 :
    (nextOf (exec (.sample 0xB4) (at_ (dec true .f .u 2 [true])))).outq = [.data .d [[true]]] := by decide
theorem test_switchD_O20 :
    exec (.switchD false) (at_ (dec true .f .t 2 (List.replicate 8 true))) =
      .next { at_ { dec true .t .f 1 [false] with n := 2 } with
        outq := [.data .c [List.replicate 8 true]] } := by rfl
theorem test_saturation_P4 :
    (decAfter small (dec false .f .u 3 []) 0x00).sinceLast = 3 := by decide

/-! ### Host events (V8) -/

theorem test_reset_H11 :
    exec .reset (at_ { dec true .f .f 2 [true] with run := .haltFault, faultCause := .accOverflow }) =
      .next State.reset := by rfl
theorem test_interrupt_H3 :
    exec .interrupt (at_ (dec true .t .f 1 [false])) =
      .next { at_ { dec true .t .f 1 [] with run := .haltOk } with outq := [.final] } := by rfl
theorem test_interrupt_H7 :
    exec .interrupt (at_ { dec true .t .f 1 [] with run := .haltOk }) =
      .next (at_ { dec true .t .f 1 [] with run := .haltOk }) := by rfl
theorem test_sourceEnd_H5 :
    exec .sourceEnd (at_ (dec true .t .f 1 [false])) =
      .next (at_ { dec true .t .f 1 [] with run := .haltErr }) := by rfl
theorem test_status_outputs_R138 :
    let ok := { dec true .t .f 1 [] with run := .haltOk }
    let err := { dec true .t .f 1 [] with run := .haltErr }
    (halted ok, haltErr ok, faultOut ok) = (true, false, false) ∧
    (halted err, haltErr err, faultOut err) = (true, true, false) := by decide
theorem test_idle : exec .idle State.reset = .next State.reset := by rfl

/-! ### One cycle (V10) -/

theorem test_cycle2_sink_takes_banner :
    step { State.reset with feed := [pins false false false true 0x30 true] } =
      .next { State.reset with outq := [], delivered := [.banner] } := by rfl
theorem test_cycle3_sample_taken :
    (nextOf (step { State.reset with outq := [], feed := [pins false false false true 0x30 true] })).outq =
      [.blank, .start 0] := by decide
theorem test_cycle5_sink_not_ready :
    (nextOf (step { State.reset with outq := [.start 0], feed := [pins false false false true 0x20 false] })).outq =
      [.start 0] := by decide
theorem test_cycle9_interrupt_wins :
    (nextOf (step { at_ (dec true .f .f 2 [false]) with
      feed := [pins false true false true 0x32 true] })).dec.run = .haltOk := by decide
theorem test_port_of_data : -- R125: bits 0, 1, 1 arrived in that order
    drive (.data .c [[false, true, true]]) = ⟨3, true, 3, 6⟩ := by decide

/-! ### Grouping and text (R112, V7) -/

theorem test_group_lengths_R112 :
    (group (List.replicate 10 true)).map List.length = [2, 8] ∧
    (group (List.replicate 11 true)).map List.length = [8, 3] ∧
    (group (List.replicate 18 true)).map List.length = [2, 8, 8] ∧
    (group (List.replicate 24 true)).map List.length = [8, 8, 8] := by decide
theorem test_fmt6_ties :
    micros (1 / 2000000) = 0 ∧ micros (3 / 2000000) = 2 ∧ micros (5 / 2000000) = 2 ∧
    micros (2 / 3) = 666667 := by decide +kernel
theorem test_fmt6_carry :
    fmt6Default (1999999 / 2000000) = ascii ['1', '.', '0', '0', '0', '0', '0', '0'] := by decide +kernel
theorem test_fmt6_many_digits :
    fmt6Default (123456789 / 1000000) =
      ascii ['1', '2', '3', '.', '4', '5', '6', '7', '8', '9'] := by decide +kernel
theorem test_render_start_W9 :
    render fmt6Default (1 / 100000) (.start 2) =
      [0x53, 0x20, 0x2B, 0x30, 0x2E, 0x30, 0x30, 0x30, 0x30, 0x32, 0x30, 0x73, 0x0A] := by
  decide +kernel
theorem test_render_data :
    render fmt6Default 0 (.data .d [[false, true], [true, false, false, false, false, true, false, true]]) =
      [0x44, 0x20, 0x30, 0x31, 0x20, 0x31, 0x30, 0x30, 0x30, 0x30, 0x31, 0x30, 0x31, 0x0A] := by
  decide +kernel

/-! ### Runs (R143) -/

theorem test_run_ends_at_interrupt : -- the sample and the INTERRUPT after the halt are of no run (P2, H7)
    (runsOf Config.reference [.sample 0x30, .reset, .sample 0x30, .interrupt, .sample 0x00, .interrupt]).map
      (fun r => (r.out, runEnd r.dec.run)) = [([.banner, .blank, .start 0, .final], .finished)] := by decide
theorem test_reset_begins_another_run : -- the end of P4: HALT_FAULT, then RESET
    (runsOf { small with bitsCap := .finite 1 }
      [.reset, .sample 0x30, .sample 0x20, .sample 0x30, .interrupt, .reset, .sample 0x00]).map
      (fun r => (r.out, runEnd r.dec.run)) =
      [([.banner, .blank, .start 0], .faulted), ([.banner], .unfinished)] := by decide
theorem test_current_run_holds_queued_final :
    (currentRun { at_ (dec true .t .f 1 []) with
      delivered := [.banner, .final, .banner, .blank, .start 0], outq := [.final] }).out =
      [.banner, .blank, .start 0, .final] := by decide
theorem witness_RunEndsAtItsFirstHalt :
    (([.sample 0x30, .interrupt] ++ [.sample 0x00] : List Event)[2]? = some (.sample 0x00)) ∧
    (runEvents Config.reference Decoder.initial [.sample 0x30, .interrupt]).dec.run = .haltOk ∧
    ([.interrupt, .sample 0x00] : List Event).head? = some .interrupt := by decide

/-! ### The host's words -/

theorem test_table_words :
    decodeTableWord 8 0x30 = some (.startD false) ∧ decodeTableWord 8 0xB0 = some (.startC false) ∧
    decodeTableWord 8 0x20 = some .strobeLow ∧ decodeTableWord 8 0x00 = some (.pwoLowIdle false) ∧
    decodeTableWord 8 0x08 = some .reset ∧ decodeTableWord 4 0x4 = some .interrupt ∧
    decodeTableWord 4 0x2 = some .sourceEnd ∧ decodeTableWord 8 0x01 = some (.sample 0) ∧
    decodeTableWord 4 0x0 = some .idle := by decide
theorem test_fetch_word_runs :
    (nextOf (step (State.reset.withFetchWord 8 0x30))).outq = [.blank, .start 0] ∧
    (nextOf (step (State.reset.withFetchWord 4 0x4))).dec.run = .haltOk := by decide

/-! ### Witnesses: reset and cycles -/

theorem witness_ResetReinitialisesEveryField :
    ∃ (s : State) (p : Pins) (rest : List Pins), s.feed = p :: rest ∧ p.rst = true ∧ s.dec.run = .haltErr :=
  ⟨{ at_ { dec true .t .t 1 [] with run := .haltErr } with feed := [pins true true true true 0xB4 true] },
    _, _, rfl, rfl, rfl⟩
theorem witness_HeldResetQueuesOneBanner :
    let s : State := { at_ (dec true .t .t 1 [true]) with
      feed := [pins true false false false 0 true, pins true true true true 0x30 true,
        pins false false false true 0x30 true] }
    1 < s.feed.length ∧ (∀ p ∈ s.feed.take (1 + 1), p.rst = true) ∧
      s.feed.drop (1 + 1) = [pins false false false true 0x30 true] := by decide
theorem witness_BannerComesFirstAndOnce :
    let s : State := { State.reset with feed := [pins false false false true 0x30 false] }
    noReset s ∧ 1 ≤ s.feed.length ∧ (runCycles 1 s).delivered = [] := by
  refine ⟨?_, by decide, by decide⟩
  intro p hp
  simp only [List.mem_singleton] at hp
  subst hp; rfl
theorem witness_InterruptHaltsWithFinal :
    let s : State := { at_ (dec true .t .f 1 [false]) with feed := [pins false true true true 0x30 false] }
    s.dec.run = .run ∧ s.outq = [] ∧ s.feed = [pins false true true true 0x30 false] := by decide
theorem witness_SourceEndHaltsWithError :
    let s : State := { at_ (dec true .t .f 1 [false]) with feed := [pins false false true true 0x30 false] }
    s.dec.run = .run ∧ s.outq = [] ∧ s.feed = [pins false false true true 0x30 false] := by decide
theorem witness_HaltedBlockIgnoresEvents : (at_ { dec true .t .f 1 [] with run := .haltOk }).dec.run ≠ .run := by
  decide
theorem witness_CycleWithoutEventKeepsTheRecord :
    takenEvent (at_ (dec true .t .f 1 [false])) = none ∧
    takenEvent { State.reset with feed := [pins false true false false 0 true] } = none := by decide
theorem witness_EventPriorityOfACycle_ready :
    let s : State := { at_ (dec true .t .f 1 [false]) with feed := [pins false false false true 0x20 true] }
    sReady s false = true ∧ takenEvent s = some (.sample 0x20) := by decide
theorem witness_EventPriorityOfACycle_each :
    let s (p : Pins) : State := { at_ (dec true .t .f 1 [false]) with feed := [p] }
    takenEvent (s (pins true true true true 0 true)) = some .reset ∧
    takenEvent (s (pins false true true true 0 true)) = some .interrupt ∧
    takenEvent (s (pins false false true true 0 true)) = some .sourceEnd ∧
    takenEvent (s (pins false false false false 0 true)) = none := by decide
theorem witness_EventPriorityOfACycle_stalled :
    let s : State := { State.reset with feed := [pins false true true true 0 false] }
    sReady s false = false ∧ takenEvent s = none := by decide
theorem witness_StepRunsTheDecodedInstruction :
    let p := pins false false false true 0x32 false
    let s : State := { at_ (dec true .f .t 2 [true]) with feed := [p] }
    sReady s p.rst = true ∧ decodeCtl p = .sample p.sData := by decide
theorem witness_HandshakeMovesTheHeadOrNothing :
    let s (r : Bool) : State := { State.reset with feed := [pins false true false true 0 r] }
    (s true).feed = [pins false true false true 0 true] ∧ (s false).outq = [.banner] := by decide
theorem witness_QueuedLinesLeaveOnePerEdge :
    let s : State := { State.reset with
      outq := [.blank, .start 4],
      feed := [pins false false false true 0 true, pins false false false true 0 true] }
    2 ≤ s.outq.length ∧ 2 ≤ s.feed.length ∧ ∀ p ∈ s.feed.take 2, p.rst = false ∧ p.lReady = true := by decide
theorem witness_OnlyResetLeavesAHalt :
    let s : State := { at_ { dec true .t .f 1 [] with run := .haltFault } with
      feed := [pins false true false true 0x30 true] }
    s.dec.run ≠ .run ∧ noReset s := by
  refine ⟨by decide, ?_⟩
  intro p hp
  simp only [List.mem_singleton] at hp
  subst hp; rfl
theorem witness_CyclesRefineTheAbstractMachine :
    noReset { State.reset with feed := [pins false false false true 0x30 true] } := by
  intro p hp
  simp only [List.mem_singleton] at hp
  subst hp; rfl

/-! ### Witnesses: operations -/

theorem witness_PwoLowIdleResult :
    let s := at_ (dec false .f .t 10 [])
    s.dec.run = .run ∧ s.dec.inCommand = false ∧ Nat.testBit 0xDF 5 = false := by decide
theorem witness_PwoLowEndResult :
    let s := at_ (dec true .f .f 2 [false, true])
    s.dec.run = .run ∧ s.dec.inCommand = true ∧ Nat.testBit 0x12 5 = false := by decide
theorem witness_StrobeLowResult :
    (at_ (dec true .t .f 1 [false])).dec.run = .run ∧ Nat.testBit 0xA6 5 = true ∧
      Nat.testBit 0xA6 4 = false := by decide
theorem witness_StrobeHeldResult :
    let s := at_ (dec true .t .f 1 [false])
    s.dec.run = .run ∧ Nat.testBit 0xB6 5 = true ∧ Nat.testBit 0xB6 4 = true ∧ s.dec.lastP2 = .t := by decide
theorem witness_StartCResult :
    let s := at_ (dec false .f .f 3 [])
    s.cfg.wf = true ∧ s.dec.run = .run ∧ Nat.testBit 0xB4 5 = true ∧ Nat.testBit 0xB4 4 = true ∧
      Nat.testBit 0xB4 7 = true ∧ s.dec.lastP2 ≠ .t ∧ s.dec.inCommand = false := by decide
theorem witness_StartDResult :
    let s : State := { State.reset with cfg := small }
    s.cfg.wf = true ∧ s.dec.run = .run ∧ Nat.testBit 0x30 5 = true ∧ Nat.testBit 0x30 4 = true ∧
      Nat.testBit 0x30 7 = false ∧ s.dec.lastP2 ≠ .t ∧ s.dec.inCommand = false := by decide
theorem witness_BitCResult_room :
    let s : State := { at_ (dec true .f .t 2 [true]) with cfg := small }
    s.cfg.wf = true ∧ s.dec.run = .run ∧ Nat.testBit 0xB4 5 = true ∧ Nat.testBit 0xB4 4 = true ∧
      Nat.testBit 0xB4 7 = true ∧ s.dec.lastP2 ≠ .t ∧ s.dec.inCommand = true ∧ s.dec.lastSync = .t ∧
      s.cfg.bitsCap ≠ .finite s.dec.bits.length := by decide
theorem witness_BitCResult_full :
    let s : State := { at_ (dec true .f .t 2 [true, false]) with cfg := small }
    s.cfg.wf = true ∧ s.dec.run = .run ∧ s.dec.lastP2 ≠ .t ∧ s.dec.inCommand = true ∧
      s.dec.lastSync = .t ∧ s.cfg.bitsCap = .finite s.dec.bits.length := by decide
theorem witness_BitDResult_room :
    let s : State := { at_ (dec true .f .f 2 [true]) with cfg := small }
    s.cfg.wf = true ∧ s.dec.run = .run ∧ Nat.testBit 0x32 5 = true ∧ Nat.testBit 0x32 4 = true ∧
      Nat.testBit 0x32 7 = false ∧ s.dec.lastP2 ≠ .t ∧ s.dec.inCommand = true ∧ s.dec.lastSync = .f ∧
      s.cfg.bitsCap ≠ .finite s.dec.bits.length := by decide
theorem witness_BitDResult_full :
    let s : State := { at_ (dec true .f .f 2 [true, false]) with cfg := small }
    s.cfg.wf = true ∧ s.dec.run = .run ∧ s.dec.lastP2 ≠ .t ∧ s.dec.inCommand = true ∧
      s.dec.lastSync = .f ∧ s.cfg.bitsCap = .finite s.dec.bits.length := by decide
theorem witness_SwitchCResult :
    let s : State := { at_ (dec true .f .f 2 [true, false]) with cfg := small }
    s.cfg.wf = true ∧ s.dec.run = .run ∧ Nat.testBit 0xB4 5 = true ∧ Nat.testBit 0xB4 4 = true ∧
      Nat.testBit 0xB4 7 = true ∧ s.dec.lastP2 ≠ .t ∧ s.dec.inCommand = true ∧ s.dec.lastSync ≠ .t := by decide
theorem witness_SwitchDResult :
    let s : State := at_ (dec true .f .t 2 [true, true])
    s.cfg.wf = true ∧ s.dec.run = .run ∧ Nat.testBit 0x30 5 = true ∧ Nat.testBit 0x30 4 = true ∧
      Nat.testBit 0x30 7 = false ∧ s.dec.lastP2 ≠ .t ∧ s.dec.inCommand = true ∧ s.dec.lastSync ≠ .f := by decide
theorem witness_TimingAfterEverySample_accepted :
    let d := dec true .f .f 2 [true]
    small.wf = true ∧ d.run = .run ∧ (decAfter small d 0x32).run = .run ∧ accepts d 0x32 = true := by decide
theorem witness_TimingAfterEverySample_saturated :
    let d := dec false .f .f 3 []
    small.wf = true ∧ d.run = .run ∧ (decAfter small d 0x10).run = .run ∧ accepts d 0x10 = false ∧
      small.slMax = .finite d.sinceLast := by decide
theorem witness_TimingAfterEverySample_unbounded :
    let d := dec true .t .f 3 [true]
    Config.reference.wf = true ∧ d.run = .run ∧ (decAfter Config.reference d 0x30).run = .run ∧
      accepts d 0x30 = false ∧ Config.reference.slMax = .inf := by decide
theorem witness_OverflowOnlyOnFullAccumulator :
    let d := dec true .f .f 2 [true, false]
    small.wf = true ∧ d.run = .run ∧ (decAfter small d 0x30).run = .haltFault ∧
      (decAfter small d 0xB0).run ≠ .haltFault := by decide
theorem witness_SampleStepEmitsOneOfThreeOutputs :
    Framed (dec false .f .t 3 []) ∧ Framed (dec true .f .t 3 [true]) ∧
    decodeOp (dec false .f .t 3 []).view 0xB4 = .startC true ∧
    decodeOp (dec false .f .t 3 []).view 0x30 = .startD false ∧
    decodeOp (dec true .f .t 3 [true]).view 0x00 = .pwoLowEnd false ∧
    decodeOp (dec true .f .t 3 [true]).view 0x30 = .switchD false ∧
    decodeOp (dec true .f .f 3 [true]).view 0xB0 = .switchC false ∧
    decodeOp (dec true .f .t 3 [true]).view 0x20 = .strobeLow := by decide

/-! ### Witnesses: encoding, runs of samples, hardware, invariant -/

theorem witness_DecodeOfEncodeIsTheInstruction :
    Config.reference.wf = true ∧ Instr.wf Config.reference (.sample 255) = true ∧
    (Instr.bitC true).selectable ⟨true, .u, .t⟩ = true ∧ (Instr.sample 255).selectable .atReset = true := by decide
theorem witness_UnusedSampleBitsChangeNothing :
    ∀ k ∈ [1, 2, 4, 5, 7], Nat.testBit 0x79 k = Nat.testBit 0x130 k := by decide
theorem witness_CountIsSamplesSinceTheLastAcceptedBit :
    let as := acceptances small Decoder.initial [0x00, 0x30, 0x20, 0x20]
    (runSamples small Decoder.initial [0x00, 0x30, 0x20, 0x20]).dec.run = .run ∧
      as = [false, true, false, false] ∧ as[1]? = some true := by decide
theorem witness_CountIsSamplesSinceTheLastAcceptedBit_none :
    acceptances small Decoder.initial [0x00, 0x20, 0x00, 0x10] = List.replicate 4 false ∧
      (runSamples small Decoder.initial [0x00, 0x20, 0x00, 0x10]).dec.run = .run := by decide
theorem witness_LinesAndHeldBitsAreTheAcceptedBits :
    let d := dec true .f .t 2 [true]
    Framed d ∧ (runSamples Config.reference d [0x32, 0x20, 0xB4, 0x00]).dec.run = .run := by decide
theorem witness_CommandEndFlushesExactlyOnce :
    let d := dec true .t .t 2 [true]
    d.run = .run ∧ Framed d ∧ d.inCommand = true ∧ Nat.testBit 0x00 5 = false ∧
      ∀ a ∈ acceptances Config.reference (decAfter Config.reference d 0x00) [0x10, 0x30, 0x20], a = false := by
  decide
theorem witness_NoEdgeMeansNoCommand :
    let d := dec false .t .t 2 []
    d.inCommand = false ∧ ∀ a ∈ acceptances Config.reference d [0x30, 0x20, 0x00], a = false := by decide
theorem witness_HeldStrobeAcceptsNoFurtherBit :
    (dec true .t .t 2 [true]).lastP2 = .t ∧ ∀ smp ∈ [0x30, 0x10, 0xB6], Nat.testBit smp 4 = true := by decide
theorem witness_LastSyncIsInvisibleInIdle :
    let d := dec false .f .t 2 []
    d.inCommand = false ∧ d.bits = [] ∧
      Line.start 2 ∈ (runEvents Config.reference d [.sample 0x30]).out := by decide
theorem witness_GroupingLaw :
    ([true, false] : List Bool) ≠ [] ∧ (List.replicate 10 true).length % 8 = 2 ∧
    (List.replicate 8 true).length % 8 = 0 ∧ (List.replicate 9 true).length % 8 = 1 := by decide
theorem witness_HardwareGroupingAgrees :
    (dec true .t .t 1 [true, false]).bits ≠ [] ∧
    AccHolds (fun i => decide (i ≠ 1)) (dec true .t .t 1 [true, false]) := by
  refine ⟨by decide, ?_⟩
  intro i h
  have : i < 2 := h
  interval_cases i <;> rfl
theorem witness_HardwareAccumulatorHoldsTheBits :
    let w := beginWork (dec true .t .t 1 [true])
    AccHolds (fun _ => true) w.dec ∧ append small false w = .ok (setBits [true, false] w) := by
  refine ⟨?_, rfl⟩
  intro i h
  have : i < 1 := h
  interval_cases i; rfl
theorem witness_LinePortCarriesTheLine : ([true] : List Bool) ≠ [] := by decide
/-- A reachable finite state with a `Data` line queued, at the limits of its parameters. -/
def boundary : State :=
  { at_ (dec true .t .t 3 [true, true]) with cfg := small, outq := [.data .d [[true, false]], .start 3] }
theorem witness_Inv : Inv boundary := by
  constructor <;> decide
theorem witness_LinePortFitsItsWidths :
    boundary.cfg.wf = true ∧ boundary.cfg.slMax = .finite 3 ∧ boundary.cfg.bitsCap = .finite 2 ∧
      linePort boundary false = some ⟨3, false, 2, 1⟩ := by decide
theorem witness_CountersFitTheirRegisters :
    Inv boundary ∧ boundary.cfg.slMax = .finite boundary.dec.sinceLast ∧
      boundary.cfg.bitsCap = .finite (accLen boundary.dec) := ⟨witness_Inv, rfl, rfl⟩
theorem witness_HardwareCodesAndStatusOutputs :
    Inv (at_ { dec true .f .t 2 [true] with run := .haltFault, faultCause := .accOverflow }) := by
  constructor <;> decide
theorem witness_MicrosRoundHalfToEven_tie :
    |(micros (3 / 2000000) : ℚ) - ((3 / 2000000 : ℚ≥0) : ℚ) * 1000000| = 1 / 2 := by decide +kernel
theorem witness_StepKeepsTheInvariant :
    Inv boundary ∧ ∃ t, step { boundary with feed := [pins false false false false 0 true] } = .next t ∧
      t.outq = [.start 3] := ⟨witness_Inv, _, rfl, rfl⟩
theorem witness_NoFaultAtTheReferenceConfiguration :
    State.reset.cfg.bitsCap = .inf ∧ State.reset.dec.run ≠ .haltFault := by decide
theorem witness_InstructionsLeaveInterfacesUnchanged :
    exec (.bitC true) (at_ (dec true .f .t 2 [true])) =
      .next (at_ { dec true .t .t 1 [true, true] with n := 2 }) ∧ Instr.bitC true ≠ .reset :=
  ⟨rfl, by decide⟩
theorem witness_FrameOfOperationsWithoutABit :
    (∃ t, exec (.pwoLowIdle true) (at_ (dec false .f .t 2 [])) = .next t) ∧
    (∃ t, exec .strobeLow (at_ (dec true .t .t 2 [true])) = .next t) ∧
    (∃ t, exec .strobeHeld (at_ (dec true .t .t 2 [true])) = .next t) ∧
    (∃ t, exec (.pwoLowEnd true) (at_ (dec true .t .t 2 [true])) = .next t) :=
  ⟨⟨_, rfl⟩, ⟨_, rfl⟩, ⟨_, rfl⟩, ⟨_, rfl⟩⟩
theorem witness_FrameOfOperationsWithABit :
    let s : State := { at_ (dec true .f .t 2 [true, false]) with cfg := small }
    s.cfg.wf = true ∧ s.cfg.bitsCap = .finite s.dec.bits.length ∧
    Config.reference.bitsCap ≠ .finite s.dec.bits.length ∧
    (∃ t, exec (.bitC true) s = .next t) ∧ (∃ t, exec (.bitD true) s = .next t) ∧
    (∃ t, exec (.startC true) s = .next t) ∧ (∃ t, exec (.startD true) s = .next t) ∧
    (∃ t, exec (.switchC true) s = .next t) ∧ (∃ t, exec (.switchD true) s = .next t) :=
  ⟨by decide, by decide, by decide, ⟨_, rfl⟩, ⟨_, rfl⟩, ⟨_, rfl⟩, ⟨_, rfl⟩, ⟨_, rfl⟩, ⟨_, rfl⟩⟩
theorem witness_FrameOfHaltingEvents :
    (∃ t, exec .interrupt (at_ (dec true .t .t 2 [true])) = .next t) ∧
    (∃ t, exec .sourceEnd (at_ (dec true .t .t 2 [true])) = .next t) := ⟨⟨_, rfl⟩, ⟨_, rfl⟩⟩

end Sys2Proof.Tests
end

section
/-! What an instruction and a cycle can do to the whole state, said once: every instruction but RESET
absorbs a `Work`, and a cycle either takes one event or hands over a line. -/
namespace Sys2Proof.Machine

/-! ### One instruction -/

/-- A step that writes nothing and emits nothing leaves the state as it is. -/
@[simp] theorem absorb_beginWork (s : State) : absorb s (beginWork s.dec) = s := by
  simp [absorb, beginWork]

/-- A SAMPLE step in any run state, as one `Work` the state absorbs (R74, R75). -/
theorem onSample_eq_absorb (s : State) (f : Work → Work) :
    onSample s f = .next (absorb s
      (if s.dec.run = .run then f (beginWork (countSample s.dec)) else beginWork s.dec)) := by
  rw [onSample_spec]
  split <;> simp

/-- Every instruction but RESET answers the state with some record and lines absorbed. -/
theorem exec_eq_absorb {i : Instr} (hi : i ≠ .reset) (s : State) :
    ∃ w, exec i s = .next (absorb s w) := by
  cases i with
  | reset => exact absurd rfl hi
  | interrupt | sourceEnd | sample => exact ⟨_, rfl⟩
  | idle => exact ⟨beginWork s.dec, by rw [absorb_beginWork]; rfl⟩
  | pwoLowIdle | pwoLowEnd | strobeLow | strobeHeld | startC | startD | bitC | bitD | switchC
  | switchD =>
    simp only [exec, execPwoLowIdle, execPwoLowEnd, execStrobeLow, execStrobeHeld, execStartC,
      execStartD, execBitC, execBitD, execSwitchC, execSwitchD, onSample_eq_absorb]
    exact ⟨_, rfl⟩

/-- RESET replaces the record and the queue, whatever they were (R126). -/
theorem exec_reset (s : State) :
    exec .reset s = .next { s with dec := hostReset.dec, outq := hostReset.out } := rfl

/-- Settles O52: RESET writes only the record and the queue, and every other instruction absorbs its
lines behind those queued. -/
theorem instructionsLeaveInterfacesUnchanged : Obligations.InstructionsLeaveInterfacesUnchanged := by
  intro i s t h
  by_cases hi : i = .reset
  · subst hi
    rw [exec_reset] at h
    cases h
    exact ⟨rfl, rfl, rfl, fun hne => absurd rfl hne⟩
  · obtain ⟨w, hw⟩ := exec_eq_absorb hi s
    rw [hw] at h
    cases h
    exact ⟨rfl, rfl, rfl, fun _ => ⟨w.out, rfl⟩⟩

/-! ### One cycle -/

/-- The state after an event: its record, and its lines behind the queue, which a RESET drops first. -/
def takeEvent (e : Event) (s : State) : State :=
  { s with
    dec := (eventStep s.cfg s.dec e).dec
    outq := (if e = .reset then [] else s.outq) ++ (eventStep s.cfg s.dec e).out }

@[simp] theorem takeEvent_cfg (e : Event) (s : State) : (takeEvent e s).cfg = s.cfg := rfl
@[simp] theorem takeEvent_dec (e : Event) (s : State) :
    (takeEvent e s).dec = (eventStep s.cfg s.dec e).dec := rfl

/-- An instruction that stands for an event does what the abstract machine does on it (R74). -/
theorem exec_of_eventOf {i : Instr} {e : Event} (h : eventOf i = some e) (s : State) :
    exec i s = .next (takeEvent e s) := by
  cases i with
  | reset | interrupt | sourceEnd | sample => cases h; rfl
  | pwoLowIdle | pwoLowEnd | strobeLow | strobeHeld | startC | startD | bitC | bitD | switchC
  | switchD | idle => cases h

/-- The pins select one of the four events, or IDLE (R65). -/
theorem decodeCtl_cases (p : Pins) : (∃ e, eventOf (decodeCtl p) = some e) ∨ decodeCtl p = .idle := by
  unfold decodeCtl
  split_ifs
  · exact .inl ⟨_, rfl⟩
  · exact .inl ⟨_, rfl⟩
  · exact .inl ⟨_, rfl⟩
  · exact .inl ⟨_, rfl⟩
  · exact .inr rfl

/-- With nothing queued the handshake does nothing. -/
theorem handshake_of_outq_nil {s : State} (h : s.outq = []) (r : Bool) : handshake r s = s := by
  simp only [handshake, h]

/-- An instruction is taken exactly when `rst` or `s_ready` is 1, and the pins select it (R65). -/
theorem fetch_eq_some_iff {s : State} {i : Instr} :
    fetch s = some i ↔
      ((pinsNow s).rst = true ∨ sReady s (pinsNow s).rst = true) ∧ decodeCtl (pinsNow s) = i := by
  simp [fetch]

/-- IDLE is taken only with `s_ready = 1`, so with an empty queue. -/
theorem outq_eq_nil_of_fetch_idle {s : State} (h : fetch s = some .idle) : s.outq = [] := by
  obtain ⟨hrst | hready, hidle⟩ := fetch_eq_some_iff.mp h
  · simp [decodeCtl, hrst] at hidle
  · simp only [sReady, Bool.and_eq_true, decide_eq_true_eq] at hready
    exact hready.2

/-- A cycle that takes an event does what the abstract machine does on it. -/
theorem step_of_takenEvent {s : State} {e : Event} (h : takenEvent s = some e) :
    step s = .next (takeEvent e (nextCycle s)) := by
  obtain ⟨i, hi, he⟩ := Option.bind_eq_some_iff.mp h
  simp only [step, hi]
  exact exec_of_eventOf he _

/-- A cycle that takes none does the line handshake and nothing else; on an IDLE cycle the queue is
empty, so the handshake is the whole of it there too. -/
theorem step_of_takenEvent_eq_none {s : State} (h : takenEvent s = none) :
    step s = .next (handshake (pinsNow s).lReady (nextCycle s)) := by
  cases hf : fetch s with
  | none => simp only [step, hf]
  | some i =>
    have hidle : i = .idle := by
      obtain ⟨-, hdec⟩ := fetch_eq_some_iff.mp hf
      rcases decodeCtl_cases (pinsNow s) with ⟨e, he⟩ | hid
      · rw [hdec] at he
        simp [takenEvent, hf, he] at h
      · exact hdec.symm.trans hid
    subst hidle
    have hq : (nextCycle s).outq = [] := (nextCycle_outq s).trans (outq_eq_nil_of_fetch_idle hf)
    rw [handshake_of_outq_nil hq]
    simp only [step, hf]
    rfl

end Sys2Proof.Machine
end

section
/-! Without a capacity no event enters `HALT_FAULT` (R9, R134). -/
namespace Sys2Proof.Machine

@[simp] theorem flush_run (w : Work) : (flush w).dec.run = w.dec.run := by
  rw [(flush_spec w).1]

@[simp] theorem finishSample_run (cfg : Config) (p2 : Bool) (w : Work) :
    (finishSample cfg p2 w).dec.run = w.dec.run := rfl

@[simp] theorem startCommand_run (w : Work) : (startCommand w).dec.run = w.dec.run := rfl

@[simp] theorem enterChannel_run (sync : Bool) (w : Work) :
    (enterChannel sync w).dec.run = w.dec.run := by
  rw [(enterChannel_spec sync w).1]

/-- Accepting a bit writes `run` only on a full accumulator, which needs a finite capacity. -/
theorem acceptBit_run_of_unbounded {cfg : Config} (hcap : cfg.bitsCap = .inf) (p2 b : Bool)
    (w : Work) : (acceptBit cfg p2 b w).dec.run = w.dec.run := by
  have hroom : full cfg w.dec.bits = false := by simp [full, hcap]
  rw [(acceptBit_spec cfg p2 b w).2, hroom]
  rfl

/-- Without a capacity no sample writes `run`. -/
theorem sampleStep_run_of_unbounded {cfg : Config} (hcap : cfg.bitsCap = .inf) (smp : Nat)
    (w : Work) : (sampleStep cfg smp w).dec.run = w.dec.run := by
  simp only [sampleStep]
  split_ifs <;> simp [acceptBit_run_of_unbounded hcap]

/-- Without a capacity no event enters the fault state. -/
theorem eventStep_run_ne_haltFault {cfg : Config} {d : Decoder} (hcap : cfg.bitsCap = .inf)
    (hd : d.run ≠ .haltFault) (e : Event) : (eventStep cfg d e).dec.run ≠ .haltFault := by
  cases e with
  | reset => exact RunState.noConfusion
  | interrupt | sourceEnd =>
    simp only [eventStep]
    split
    · exact RunState.noConfusion
    · exact hd
  | sample smp =>
    simp only [eventStep]
    split
    · rw [sampleStep_run_of_unbounded hcap]
      exact hd
    · exact hd

/-- Without a capacity no cycle enters the fault state, and a cycle writes no parameter. -/
theorem step_run_ne_haltFault {s : State} (hcap : s.cfg.bitsCap = .inf)
    (hs : s.dec.run ≠ .haltFault) :
    ∃ t, step s = .next t ∧ t.cfg = s.cfg ∧ t.dec.run ≠ .haltFault := by
  cases he : takenEvent s with
  | some e =>
    exact ⟨_, step_of_takenEvent he, takeEvent_cfg e _,
      by simpa using eventStep_run_ne_haltFault hcap hs e⟩
  | none =>
    obtain ⟨hdec, hcfg, -⟩ := handshake_rest (pinsNow s).lReady (nextCycle s)
    exact ⟨_, step_of_takenEvent_eq_none he, hcfg, by rwa [hdec]⟩

/-- Settles O51, by induction on the number of cycles. -/
theorem noFaultAtTheReferenceConfiguration : Obligations.NoFaultAtTheReferenceConfiguration := by
  intro s k hcap hs
  induction k generalizing s with
  | zero => exact hs
  | succ k ih =>
    obtain ⟨t, hstep, hcfg, ht⟩ := step_run_ne_haltFault hcap hs
    simp only [runCycles, hstep]
    exact ih t (hcfg ▸ hcap) ht

end Sys2Proof.Machine
end

section
/-! A line the block may emit fits the line port when `SL_MAX` and `BITS_CAP` are finite (R8, R125). -/
namespace Sys2Proof.Machine

/-- The number on `l_bits` has one bit for each bit of the line. -/
theorem bitsNumber_lt (bs : List Bool) : bitsNumber bs < 2 ^ bs.length := by
  induction bs with
  | nil => decide
  | cons b bs ih =>
    have hb : b.toNat ≤ 1 := Bool.toNat_le b
    simp only [bitsNumber, List.length_cons, pow_succ]
    omega

/-- `CW` is wide enough for both bounds when they are finite (R8). -/
theorem max_lt_two_pow_cw {cfg : Config} {a b : Nat} (hwf : cfg.wf = true)
    (ha : cfg.slMax = .finite a) (hb : cfg.bitsCap = .finite b) : max a b < 2 ^ cfg.cw := by
  have hcount : cfg.countFits = true := (Bool.and_eq_true_iff.mp hwf).2
  simpa only [Config.countFits, ha, hb, decide_eq_true_eq] using hcount

/-- The port's fields are within the bounds that hold of the line. -/
theorem drive_le_bounds {cfg : Config} {a b : Nat} (ha : cfg.slMax = .finite a)
    (hb : cfg.bitsCap = .finite b) {l : Line} (hl : lineOk cfg l = true) :
    (drive l).count ≤ max a b ∧ (drive l).bits < 2 ^ b := by
  cases l with
  | banner | blank | final => exact ⟨Nat.zero_le _, Nat.two_pow_pos b⟩
  | start k =>
    have hk : k ≤ a := by simpa [lineOk, ha, Limit.allows] using hl
    exact ⟨le_max_of_le_left hk, Nat.two_pow_pos b⟩
  | data p gs =>
    have hlen : gs.flatten.length ≤ b := by
      have hallows := (Bool.and_eq_true_iff.mp hl).2
      simpa only [hb, Limit.allows, decide_eq_true_eq] using hallows
    exact ⟨le_max_of_le_right hlen,
      (bitsNumber_lt gs.flatten).trans_le (Nat.pow_le_pow_right Nat.two_pos hlen)⟩

/-- What the port carries is a queued line. -/
theorem exists_mem_outq_of_linePort {s : State} {rst : Bool} {port : LinePort}
    (h : linePort s rst = some port) : ∃ l ∈ s.outq, drive l = port := by
  unfold linePort at h
  split at h
  · cases h
  · obtain ⟨l, hhead, hdrive⟩ := Option.map_eq_some_iff.mp h
    exact ⟨l, List.mem_of_head? hhead, hdrive⟩

/-- Settles O46: the line on the port is a queued one, so its count is within the larger bound, which
`CW` covers, and its bits within `BITS_CAP`. -/
theorem linePortFitsItsWidths : Obligations.LinePortFitsItsWidths := by
  intro s a b rst port hwf ha hb hinv hport
  obtain ⟨l, hmem, rfl⟩ := exists_mem_outq_of_linePort hport
  obtain ⟨hcount, hbits⟩ := drive_le_bounds ha hb (hinv.lines l hmem)
  exact ⟨hcount.trans_lt (max_lt_two_pow_cw hwf ha hb), hbits⟩

end Sys2Proof.Machine
end

section
/-! What the shared operations leave of each field of the record, read off the lemma that says once what
each can do; and the two outcomes of the steps that branch. -/
namespace Sys2Proof.Machine

/-! ### `flush` -/

@[simp] theorem flush_sinceLast (w : Work) : (flush w).dec.sinceLast = w.dec.sinceLast := by
  rw [(flush_spec w).1]

@[simp] theorem flush_lastSync (w : Work) : (flush w).dec.lastSync = w.dec.lastSync := by
  rw [(flush_spec w).1]

@[simp] theorem flush_inCommand (w : Work) : (flush w).dec.inCommand = w.dec.inCommand := by
  rw [(flush_spec w).1]

@[simp] theorem flush_bits (w : Work) : (flush w).dec.bits = [] := by
  rw [(flush_spec w).1]

@[simp] theorem flush_faultCause (w : Work) : (flush w).dec.faultCause = w.dec.faultCause := by
  rw [(flush_spec w).1]

/-- With no bit held a flush changes nothing (R104). -/
theorem flush_of_bits_nil {w : Work} (h : w.dec.bits = []) : flush w = w := by
  simp [flush, setBits, ← h]

/-- With bits held a flush emits their one line (R104). -/
theorem flush_out_of_bits_ne_nil {w : Work} (h : w.dec.bits ≠ []) :
    (flush w).out = w.out ++ [.data (lineChannel w.dec.lastSync) (group w.dec.bits)] := by
  rw [(flush_spec w).2, if_neg h]

/-! ### `enterChannel`, `startCommand` -/

@[simp] theorem enterChannel_lastSync (sync : Bool) (w : Work) :
    (enterChannel sync w).dec.lastSync = tri sync := rfl

@[simp] theorem enterChannel_inCommand (sync : Bool) (w : Work) :
    (enterChannel sync w).dec.inCommand = w.dec.inCommand := flush_inCommand w

@[simp] theorem enterChannel_bits (sync : Bool) (w : Work) :
    (enterChannel sync w).dec.bits = [] := flush_bits w

@[simp] theorem enterChannel_faultCause (sync : Bool) (w : Work) :
    (enterChannel sync w).dec.faultCause = w.dec.faultCause := flush_faultCause w

@[simp] theorem startCommand_inCommand (w : Work) : (startCommand w).dec.inCommand = true := rfl

@[simp] theorem startCommand_bits (w : Work) : (startCommand w).dec.bits = w.dec.bits := rfl

@[simp] theorem startCommand_faultCause (w : Work) :
    (startCommand w).dec.faultCause = w.dec.faultCause := rfl

/-! ### `finishSample` -/

@[simp] theorem finishSample_sinceLast (cfg : Config) (p2 : Bool) (w : Work) :
    (finishSample cfg p2 w).dec.sinceLast = sat cfg (w.dec.sinceLast + 1) := rfl

@[simp] theorem finishSample_lastP2 (cfg : Config) (p2 : Bool) (w : Work) :
    (finishSample cfg p2 w).dec.lastP2 = tri p2 := rfl

@[simp] theorem finishSample_lastSync (cfg : Config) (p2 : Bool) (w : Work) :
    (finishSample cfg p2 w).dec.lastSync = w.dec.lastSync := rfl

@[simp] theorem finishSample_inCommand (cfg : Config) (p2 : Bool) (w : Work) :
    (finishSample cfg p2 w).dec.inCommand = w.dec.inCommand := rfl

@[simp] theorem finishSample_bits (cfg : Config) (p2 : Bool) (w : Work) :
    (finishSample cfg p2 w).dec.bits = w.dec.bits := rfl

@[simp] theorem finishSample_faultCause (cfg : Config) (p2 : Bool) (w : Work) :
    (finishSample cfg p2 w).dec.faultCause = w.dec.faultCause := rfl

@[simp] theorem finishSample_out (cfg : Config) (p2 : Bool) (w : Work) :
    (finishSample cfg p2 w).out = w.out := rfl

/-! ### `append`, `acceptBit` -/

/-- An append goes on exactly with room in the accumulator, and then writes only `bits` (R80). -/
theorem append_eq_ok_iff {cfg : Config} {b : Bool} {w w' : Work} :
    append cfg b w = .ok w' ↔ full cfg w.dec.bits = false ∧ setBits (w.dec.bits ++ [b]) w = w' := by
  cases hf : full cfg w.dec.bits <;> simp [append, hf]

/-- On a full accumulator accepting a bit only raises the fault (R134). -/
theorem acceptBit_dec_of_full {cfg : Config} {w : Work} (h : full cfg w.dec.bits = true)
    (p2 b : Bool) :
    (acceptBit cfg p2 b w).dec = { w.dec with run := .haltFault, faultCause := .accOverflow } := by
  rw [(acceptBit_spec cfg p2 b w).2, if_pos h]

/-- With room accepting a bit appends it and begins the count again (R76, R80, R81). -/
theorem acceptBit_dec_of_room {cfg : Config} {w : Work} (h : full cfg w.dec.bits = false)
    (p2 b : Bool) :
    (acceptBit cfg p2 b w).dec =
      { w.dec with bits := w.dec.bits ++ [b], lastP2 := tri p2, sinceLast := sat cfg 1 } := by
  rw [(acceptBit_spec cfg p2 b w).2, if_neg (by simp [h])]

@[simp] theorem acceptBit_out (cfg : Config) (p2 b : Bool) (w : Work) :
    (acceptBit cfg p2 b w).out = w.out := (acceptBit_spec cfg p2 b w).1

@[simp] theorem acceptBit_inCommand (cfg : Config) (p2 b : Bool) (w : Work) :
    (acceptBit cfg p2 b w).dec.inCommand = w.dec.inCommand := by
  cases h : full cfg w.dec.bits
  · rw [acceptBit_dec_of_room h]
  · rw [acceptBit_dec_of_full h]

@[simp] theorem acceptBit_lastSync (cfg : Config) (p2 b : Bool) (w : Work) :
    (acceptBit cfg p2 b w).dec.lastSync = w.dec.lastSync := by
  cases h : full cfg w.dec.bits
  · rw [acceptBit_dec_of_room h]
  · rw [acceptBit_dec_of_full h]

/-! ### The steps that branch -/

/-- A SAMPLE step leaves a halted state as it is, and in `RUN` has its effect on the counted record
(R74, R75). -/
theorem onSample_cases {s t : State} {f : Work → Work} (h : onSample s f = .next t) :
    t = s ∨ s.dec.run = .run ∧ t = absorb s (f (beginWork (countSample s.dec))) := by
  rw [onSample_spec] at h
  cases h
  split
  · exact .inr ⟨‹_›, rfl⟩
  · exact .inl rfl

/-- A cycle takes an event because it is RESET, or because `s_ready = 1` (R65). -/
theorem takenEvent_cases {s : State} {e : Event} (h : takenEvent s = some e) :
    e = .reset ∨ s.dec.run = .run ∧ s.outq = [] := by
  obtain ⟨i, hi, he⟩ := Option.bind_eq_some_iff.mp h
  obtain ⟨hrst | hready, rfl⟩ := fetch_eq_some_iff.mp hi
  · simp only [decodeCtl, hrst, if_true, eventOf, Option.some.injEq] at he
    exact .inl he.symm
  · simp only [sReady, Bool.and_eq_true, decide_eq_true_eq] at hready
    exact .inr ⟨hready.1.2, hready.2⟩

/-- Taken with an empty queue, an event leaves just the lines it emits. -/
theorem takeEvent_eq_absorb {s : State} (hq : s.outq = []) (e : Event) :
    takeEvent e s = absorb s (eventStep s.cfg s.dec e) := by
  simp [takeEvent, absorb, hq]

/-- The handshake at most takes the head of the queue. -/
theorem handshake_outq_suffix (r : Bool) (s : State) : (handshake r s).outq <:+ s.outq := by
  unfold handshake
  split
  next => exact List.suffix_rfl
  next l ls h =>
    split
    · exact h ▸ List.suffix_cons l ls
    · exact List.suffix_rfl

end Sys2Proof.Machine
end

section
/-! The three shapes of a SAMPLE step (R76): `pwo` low, a bit accepted, and neither. The two conditional
statements before a bit is accepted have names of their own here. -/
namespace Sys2Proof.Machine

/-- Rule 2c of R76: outside a command one is started. -/
def ensureCommand (w : Work) : Work := if !w.dec.inCommand then startCommand w else w

/-- Rule 2d of R76: on a change of channel the bits held are flushed and the new channel recorded. -/
def ensureChannel (sync : Bool) (w : Work) : Work :=
  if switched w.dec.lastSync sync then enterChannel sync w else w

theorem sampleStep_of_accepts {cfg : Config} {smp : Nat} {w : Work}
    (h : accepts w.dec smp = true) :
    sampleStep cfg smp w = acceptBit cfg (extract smp).p2 (selectedBit (extract smp))
      (ensureChannel (extract smp).sync (ensureCommand w)) := by
  obtain ⟨hpwo, hedge⟩ := Bool.and_eq_true_iff.mp h
  simp only [sampleStep, hpwo, hedge]
  rfl

theorem sampleStep_of_pwo_high {cfg : Config} {smp : Nat} {w : Work}
    (hpwo : (extract smp).pwo = true) (h : accepts w.dec smp = false) :
    sampleStep cfg smp w = finishSample cfg (extract smp).p2 w := by
  have hedge : edge (extract smp).p2 w.dec.lastP2 = false := by simpa [accepts, hpwo] using h
  simp only [sampleStep, hpwo, hedge]
  rfl

/-- With `pwo` low the flush may be read as unconditional: outside a command no bit is held (R93). -/
theorem sampleStep_of_pwo_low {cfg : Config} {smp : Nat} {w : Work}
    (hpwo : (extract smp).pwo = false) (hclosed : w.dec.inCommand = false → w.dec.bits = []) :
    sampleStep cfg smp w =
      finishSample cfg (extract smp).p2 (setInCommand false (flush w)) := by
  cases hc : w.dec.inCommand
  · rw [flush_of_bits_nil (hclosed hc)]
    simp [sampleStep, hpwo, hc]
  · simp [sampleStep, hpwo, hc]

@[simp] theorem ensureCommand_inCommand (w : Work) : (ensureCommand w).dec.inCommand = true := by
  cases h : w.dec.inCommand <;> simp [ensureCommand, h]

@[simp] theorem ensureChannel_inCommand (sync : Bool) (w : Work) :
    (ensureChannel sync w).dec.inCommand = w.dec.inCommand := by
  unfold ensureChannel
  split
  · exact enterChannel_inCommand sync w
  · rfl

@[simp] theorem ensureChannel_lastSync (sync : Bool) (w : Work) :
    (ensureChannel sync w).dec.lastSync = tri sync := by
  unfold ensureChannel
  split
  · rfl
  next h => simpa [switched] using h

end Sys2Proof.Machine
end

section
/-! Every step keeps the invariant (R93 to R96). Between the statements of a step the framing
conjuncts are broken and restored; `MidStep` holds throughout, and the last statement of the step leads
from it back to `Inv`. -/
namespace Sys2Proof.Machine

/-! ### Flushed lines -/

/-- The groups after the header are the bits they are cut from, in order. -/
theorem peelGroups_flatten (k : Nat) (bs : List Bool) : (peelGroups k bs).flatten = bs := by
  induction k generalizing bs with
  | zero =>
    unfold peelGroups
    split <;> simp_all
  | succ k ih =>
    unfold peelGroups
    split
    · rw [List.flatten_cons, ih, List.take_append_drop]
    · split <;> simp_all

/-- Grouping neither drops nor reorders a bit (R107). -/
@[simp] theorem group_flatten (bs : List Bool) : (group bs).flatten = bs := by
  unfold group
  split
  · rw [List.flatten_cons, peelGroups_flatten, List.take_append_drop]
  · exact peelGroups_flatten _ bs

/-- Held bits make at least one group. -/
theorem group_ne_nil {bs : List Bool} (h : bs ≠ []) : group bs ≠ [] := by
  intro hg
  have hflat : (group bs).flatten = bs := group_flatten bs
  rw [hg] at hflat
  exact h hflat.symm

/-- A flush of held bits within the capacity emits a well-formed line. -/
theorem lineOk_data_group {cfg : Config} {bs : List Bool} (hne : bs ≠ [])
    (hcap : cfg.bitsCap.allows bs.length = true) (p : Channel) :
    lineOk cfg (.data p (group bs)) = true := by
  simp [lineOk, group_ne_nil hne, hcap]

/-! ### Bounds -/

/-- Every bound allows 0. -/
@[simp] theorem allows_zero (l : Limit) : l.allows 0 = true := by
  cases l <;> simp [Limit.allows]

/-- One more bit stays within the capacity when the accumulator is not full. -/
theorem allows_length_append {cfg : Config} {bs : List Bool}
    (hcap : cfg.bitsCap.allows bs.length = true) (hroom : full cfg bs = false) (b : Bool) :
    cfg.bitsCap.allows (bs ++ [b]).length = true := by
  cases hc : cfg.bitsCap with
  | inf => rfl
  | finite m =>
    simp only [hc, full, Limit.allows, decide_eq_true_eq, decide_eq_false_iff_not,
      List.length_append, List.length_singleton] at *
    omega

/-! ### In the middle of a step -/

/-- What holds between the statements of a step taken in `RUN`, whatever they have done to the framing:
`run` is still `RUN`, the numbers are within their bounds, and the lines emitted so far are well formed,
at most two, with room for the line of the bits still held. -/
structure MidStep (cfg : Config) (w : Work) : Prop where
  running : w.dec.run = .run
  cause : w.dec.faultCause ≠ .accOverflow
  count : cfg.slMax.allows w.dec.sinceLast = true
  capacity : cfg.bitsCap.allows w.dec.bits.length = true
  queue : w.out.length ≤ 2
  room : w.dec.bits ≠ [] → w.out.length ≤ 1
  lines : ∀ l ∈ w.out, lineOk cfg l = true

/-- A step begins so, in a state that meets the invariant. -/
theorem Inv.midStep {s : State} (hs : Inv s) (hrun : s.dec.run = .run) :
    MidStep s.cfg (beginWork s.dec) where
  running := hrun
  cause hc := by simpa [hrun] using hs.cause.mp hc
  count := hs.count
  capacity := hs.capacity
  queue := Nat.zero_le _
  room _ := Nat.zero_le _
  lines _ hl := absurd hl List.not_mem_nil

section
variable {cfg : Config} {w : Work}

/-- The ghost count is no part of it. -/
theorem MidStep.countSample {d : Decoder} (h : MidStep cfg (beginWork d)) :
    MidStep cfg (beginWork (countSample d)) := { h with }

theorem MidStep.setInCommand (h : MidStep cfg w) (b : Bool) : MidStep cfg (setInCommand b w) :=
  { h with }

theorem MidStep.setLastSync (h : MidStep cfg w) (v : Tri) : MidStep cfg (setLastSync v w) :=
  { h with }

/-- The first line of a step leaves room for another. -/
theorem MidStep.emit (h : MidStep cfg w) (ho : w.out = []) {l : Line} (hl : lineOk cfg l = true) :
    MidStep cfg (emit l w) :=
  { h with
    queue := by simp [ho]
    room := fun _ => by simp [ho]
    lines := by simpa [ho] using hl }

/-- A flush uses the room kept for the line of the bits held. -/
theorem MidStep.flush (h : MidStep cfg w) : MidStep cfg (flush w) := by
  by_cases hb : w.dec.bits = []
  · rwa [flush_of_bits_nil hb]
  · have hline := lineOk_data_group hb h.capacity (lineChannel w.dec.lastSync)
    have hroom : w.out.length ≤ 1 := h.room hb
    exact
      { running := by simpa using h.running
        cause := by simpa using h.cause
        count := by simpa using h.count
        capacity := by simp
        queue := by simpa [flush_out_of_bits_ne_nil hb] using hroom
        room := by simp
        lines := by
          rw [flush_out_of_bits_ne_nil hb, List.forall_mem_append]
          exact ⟨h.lines, List.forall_mem_singleton.mpr hline⟩ }

/-- A command start emits its two lines first, and no bit is held. -/
theorem MidStep.startCommand (h : MidStep cfg w) (hb : w.dec.bits = []) (ho : w.out = []) :
    MidStep cfg (startCommand w) := by
  have hout : (Machine.startCommand w).out = [.blank, .start w.dec.sinceLast] := by
    rw [(startCommand_spec w).2, ho, List.nil_append]
  exact
    { running := h.running
      cause := h.cause
      count := h.count
      capacity := h.capacity
      queue := by simp [hout]
      room := fun hne => absurd hb hne
      lines := by simpa [hout, lineOk] using h.count }

theorem MidStep.ensureCommand (h : MidStep cfg w)
    (hclosed : w.dec.inCommand = false → w.dec.bits = []) (ho : w.out = []) :
    MidStep cfg (ensureCommand w) := by
  unfold Machine.ensureCommand
  split
  next hc => exact h.startCommand (hclosed (by simpa using hc)) ho
  next => exact h

theorem MidStep.ensureChannel (h : MidStep cfg w) (sync : Bool) :
    MidStep cfg (ensureChannel sync w) := by
  unfold Machine.ensureChannel
  split
  · exact h.flush.setLastSync (tri sync)
  · exact h

end

/-! ### The end of a step -/

section
variable {s : State} {w : Work}

/-- The last two statements of a step without a bit: they make `last_p2` known and saturate the count,
and the framing must hold already. -/
theorem MidStep.inv_absorb_finishSample (h : MidStep s.cfg w) (hq : s.outq = [])
    (hframed : Framed w.dec) (p2 : Bool) : Inv (absorb s (finishSample s.cfg p2 w)) where
  framed := hframed
  strobe _ _ := tri_ne_u p2
  cause := by simp [CauseMatches, h.cause, h.running]
  count := sat_allowed s.cfg _
  capacity := h.capacity
  queue := by simpa [hq] using h.queue
  lines := by simpa [hq] using h.lines

/-- Accepting a bit restores the framing inside a command with a known channel: with room a bit is held
after it, and on a full accumulator the step ends outside `RUN`, with the cause. -/
theorem MidStep.inv_absorb_acceptBit (h : MidStep s.cfg w) (hq : s.outq = [])
    (hopen : w.dec.inCommand = true) (hsync : w.dec.lastSync ≠ .u) (p2 b : Bool) :
    Inv (absorb s (acceptBit s.cfg p2 b w)) := by
  have hqueue : (absorb s (acceptBit s.cfg p2 b w)).outq = w.out := by simp [hq]
  cases hf : full s.cfg w.dec.bits
  case false =>
    have hdec := acceptBit_dec_of_room hf p2 b
    exact
      { framed := fun _ => by simp [hdec, hopen, hsync]
        strobe := fun _ _ => by simp [hdec]
        cause := by simp [CauseMatches, hdec, h.cause, h.running]
        count := by simpa only [absorb_dec, absorb_cfg, hdec] using sat_allowed s.cfg 1
        capacity := by
          simpa only [absorb_dec, absorb_cfg, hdec] using allows_length_append h.capacity hf b
        queue := hqueue ▸ h.queue
        lines := hqueue ▸ h.lines }
  case true =>
    have hdec := acceptBit_dec_of_full hf p2 b
    exact
      { framed := fun hrun => by simp [hdec] at hrun
        strobe := fun hrun => by simp [hdec] at hrun
        cause := by simp [CauseMatches, hdec]
        count := by simpa only [absorb_dec, absorb_cfg, hdec] using h.count
        capacity := by simpa only [absorb_dec, absorb_cfg, hdec] using h.capacity
        queue := hqueue ▸ h.queue
        lines := hqueue ▸ h.lines }

/-- INTERRUPT and SOURCE_END discard the bits held and enter a halt without a cause (R141). -/
theorem MidStep.inv_absorb_haltDiscarding (h : MidStep s.cfg w) (hq : s.outq = []) {r : RunState}
    (hrun : r ≠ .run) (hfault : r ≠ .haltFault) : Inv (absorb s (haltDiscarding r w)) where
  framed hr := absurd hr hrun
  strobe hr := absurd hr hrun
  cause := iff_of_false h.cause hfault
  count := h.count
  capacity := allows_zero _
  queue := by simpa [hq, haltDiscarding] using h.queue
  lines := by simpa [hq, haltDiscarding] using h.lines

end

/-! ### Events and cycles -/

section
variable {s : State}

/-- A sample taken in `RUN` with an empty queue keeps the invariant. -/
theorem Inv.absorb_sampleStep (hs : Inv s) (hrun : s.dec.run = .run) (hq : s.outq = []) (smp : Nat) :
    Inv (absorb s (sampleStep s.cfg smp (beginWork (countSample s.dec)))) := by
  have hmid := (hs.midStep hrun).countSample
  obtain ⟨hopen, -⟩ := hs.framed hrun
  have hclosed : s.dec.inCommand = false → s.dec.bits = [] := fun hc => by simpa [hc] using hopen
  cases hacc : accepts (countSample s.dec) smp
  case true =>
    rw [sampleStep_of_accepts hacc]
    exact ((hmid.ensureCommand hclosed rfl).ensureChannel _).inv_absorb_acceptBit hq
      (by simp) (by simp) _ _
  case false =>
    cases hpwo : (extract smp).pwo
    case true =>
      rw [sampleStep_of_pwo_high hpwo hacc]
      exact hmid.inv_absorb_finishSample hq hs.framed _
    case false =>
      rw [sampleStep_of_pwo_low hpwo hclosed]
      exact (hmid.flush.setInCommand false).inv_absorb_finishSample hq (fun _ => by simp) _

/-- RESET leads to the invariant from every state (R151). -/
theorem inv_takeEvent_reset (s : State) : Inv (takeEvent .reset s) where
  framed _ := by simp [eventStep, hostReset, Decoder.initial]
  strobe _ hn := absurd hn (Nat.lt_irrefl 0)
  cause := by simp [CauseMatches, eventStep, hostReset, Decoder.initial]
  count := allows_zero _
  capacity := allows_zero _
  queue := by simp [takeEvent, eventStep, hostReset]
  lines := by simp [takeEvent, eventStep, hostReset, lineOk]

/-- Any event taken in `RUN` with an empty queue keeps the invariant. -/
theorem Inv.takeEvent (hs : Inv s) (hrun : s.dec.run = .run) (hq : s.outq = []) (e : Event) :
    Inv (takeEvent e s) := by
  cases e with
  | reset => exact inv_takeEvent_reset s
  | interrupt =>
    rw [takeEvent_eq_absorb hq, eventStep, if_pos hrun]
    exact ((hs.midStep hrun).emit rfl rfl).inv_absorb_haltDiscarding hq (by decide) (by decide)
  | sourceEnd =>
    rw [takeEvent_eq_absorb hq, eventStep, if_pos hrun]
    exact (hs.midStep hrun).inv_absorb_haltDiscarding hq (by decide) (by decide)
  | sample smp =>
    rw [takeEvent_eq_absorb hq, eventStep, if_pos hrun]
    exact hs.absorb_sampleStep hrun hq smp

/-- The invariant speaks of no pin. -/
theorem Inv.nextCycle (hs : Inv s) : Inv (nextCycle s) := { hs with }

/-- The handshake only shortens the queue. -/
theorem Inv.handshake (hs : Inv s) (r : Bool) : Inv (handshake r s) := by
  obtain ⟨hdec, hcfg, -⟩ := handshake_rest r s
  have hsuffix := handshake_outq_suffix r s
  exact
    { framed := hdec ▸ hs.framed
      strobe := hdec ▸ hs.strobe
      cause := hdec ▸ hs.cause
      count := by rw [hdec, hcfg]; exact hs.count
      capacity := by rw [hdec, hcfg]; exact hs.capacity
      queue := hsuffix.length_le.trans hs.queue
      lines := fun l hl => hcfg ▸ hs.lines l (hsuffix.mem hl) }

end

/-- Settles O49: a cycle takes RESET, or an event in `RUN` with an empty queue, or hands over a line. -/
theorem stepKeepsTheInvariant : Obligations.StepKeepsTheInvariant := by
  intro s t hs hstep
  cases he : takenEvent s with
  | none =>
    cases (step_of_takenEvent_eq_none he).symm.trans hstep
    exact hs.nextCycle.handshake _
  | some e =>
    cases (step_of_takenEvent he).symm.trans hstep
    rcases takenEvent_cases he with rfl | ⟨hrun, hq⟩
    · exact inv_takeEvent_reset _
    · exact hs.nextCycle.takeEvent hrun hq e

end Sys2Proof.Machine
end

section
/-! The hardware view of the record: the accumulator `acc` (R35), the register widths (R22, R35), and the
codes with the status outputs (R36, R37, R138). -/
namespace Sys2Proof.Machine

/-! ### The accumulator -/

/-- Writing `acc[acc_len]` extends the bits `acc` holds by one. -/
theorem AccHolds.update_append {acc : Nat → Bool} {w : Work} (h : AccHolds acc w.dec) (b : Bool) :
    AccHolds (Function.update acc (accLen w.dec) b) (setBits (w.dec.bits ++ [b]) w).dec := by
  intro i hi
  have hle : i ≤ w.dec.bits.length := by
    rw [setBits_bits, List.length_append, List.length_singleton] at hi
    omega
  simp only [setBits_bits]
  rcases hle.lt_or_eq with hlt | rfl
  · rw [Function.update_of_ne (show i ≠ accLen w.dec from hlt.ne), List.getElem_append_left hlt]
    exact h i hlt
  · rw [List.getElem_concat_length rfl]
    exact Function.update_self ..

/-- With no bit held every `acc` will do. -/
theorem accHolds_of_bits_nil {d : Decoder} (h : d.bits = []) (acc : Nat → Bool) : AccHolds acc d := by
  intro i hi
  simp [h] at hi

/-- Settles O44: an append that goes on writes one bit behind those held, and a flush leaves none. -/
theorem hardwareAccumulatorHoldsTheBits : Obligations.HardwareAccumulatorHoldsTheBits := by
  intro acc cfg b w w' hacc
  refine ⟨fun happ => ?_, accHolds_of_bits_nil (flush_bits w) acc, ?_⟩
  · obtain ⟨-, rfl⟩ := append_eq_ok_iff.mp happ
    exact ⟨hacc.update_append b, by simp [accLen]⟩
  · simp [accLen]

/-! ### The register widths -/

/-- A register of `ceil(log2(m+1))` bits holds every number up to `m`. -/
theorem lt_two_pow_regWidth {k m : Nat} (h : k ≤ m) : k < 2 ^ regWidth m :=
  (Nat.lt_succ_of_le h).trans_le (Nat.le_pow_clog Nat.one_lt_two (m + 1))

/-- Settles O47: the invariant bounds both counters by what their registers hold. -/
theorem countersFitTheirRegisters : Obligations.CountersFitTheirRegisters := by
  intro s hs
  constructor
  · intro m hm
    have hle : s.dec.sinceLast ≤ m := by simpa [hm, Limit.allows] using hs.count
    exact lt_two_pow_regWidth hle
  · intro m hm
    have hle : s.dec.bits.length ≤ m := by simpa [hm, Limit.allows] using hs.capacity
    exact lt_two_pow_regWidth hle

/-! ### The codes and the status outputs -/

theorem triCode_injective : Function.Injective triCode := by
  intro a b h
  cases a <;> cases b <;> simp [triCode] at h ⊢

/-- `0b01`, a value without its `known` bit, codes nothing (R36). -/
theorem triCode_ne_one (a : Tri) : triCode a ≠ 0b01 := by
  cases a <;> decide

theorem runCode_injective : Function.Injective runCode := by
  intro a b h
  cases a <;> cases b <;> simp [runCode] at h ⊢

theorem causeCode_injective : Function.Injective causeCode := by
  intro a b h
  cases a <;> cases b <;> simp [causeCode] at h ⊢

/-- The block is halted exactly when the run code is not that of `RUN`. -/
theorem halted_iff_runCode (d : Decoder) : halted d = true ↔ runCode d.run ≠ 0b00 := by
  rw [halted, decide_eq_true_eq]
  exact runCode_injective.ne_iff.symm

/-- The upper bit of the run code is `halt_err`. -/
theorem haltErr_iff_runCode (d : Decoder) :
    haltErr d = true ↔ (runCode d.run).getLsbD 1 = true := by
  unfold haltErr
  cases d.run <;> decide

/-- The fault output is the run code `HALT_FAULT`. -/
theorem faultOut_iff_runCode (d : Decoder) : faultOut d = true ↔ runCode d.run = 0b11 := by
  rw [faultOut, decide_eq_true_eq]
  exact runCode_injective.eq_iff.symm

/-- The cause code is 1 exactly with the fault output, since the invariant ties the cause to the run
state (R137). -/
theorem Inv.causeCode_iff_faultOut {s : State} (hs : Inv s) :
    causeCode s.dec.faultCause = 1 ↔ faultOut s.dec = true := by
  have hcode : causeCode s.dec.faultCause = 1 ↔ s.dec.faultCause = .accOverflow :=
    causeCode_injective.eq_iff (b := .accOverflow)
  rw [faultOut, decide_eq_true_eq]
  exact hcode.trans hs.cause

/-- Settles O48: each code is injective, and the status outputs are read off the run code. -/
theorem hardwareCodesAndStatusOutputs : Obligations.HardwareCodesAndStatusOutputs :=
  ⟨fun _ _ h => triCode_injective h, triCode_ne_one, fun _ _ h => runCode_injective h,
    fun _ _ h => causeCode_injective h, fun s hs =>
      ⟨halted_iff_runCode s.dec, haltErr_iff_runCode s.dec, faultOut_iff_runCode s.dec,
        hs.causeCode_iff_faultOut⟩⟩

end Sys2Proof.Machine
end

section
/-! What each of the ten operations leaves of the state (R33, R82 to R91), in every state: an operation
outside its row's condition has the effect of log entry 7. -/
namespace Sys2Proof.Machine

/-! ### The effect of each operation on the record -/

theorem exec_pwoLowIdle (p2 : Bool) (s : State) : exec (.pwoLowIdle p2) s =
    onSample s fun w => finishSample s.cfg p2 (setInCommand false w) := rfl

theorem exec_pwoLowEnd (p2 : Bool) (s : State) : exec (.pwoLowEnd p2) s =
    onSample s fun w => finishSample s.cfg p2 (setInCommand false (flush w)) := rfl

theorem exec_strobeLow (s : State) : exec .strobeLow s = onSample s (finishSample s.cfg false) := rfl

theorem exec_strobeHeld (s : State) : exec .strobeHeld s = onSample s (finishSample s.cfg true) := rfl

theorem exec_startC (isa : Bool) (s : State) : exec (.startC isa) s =
    onSample s fun w => acceptBit s.cfg true isa (enterChannel true (startCommand w)) := rfl

theorem exec_startD (iwa : Bool) (s : State) : exec (.startD iwa) s =
    onSample s fun w => acceptBit s.cfg true iwa (enterChannel false (startCommand w)) := rfl

theorem exec_bitC (isa : Bool) (s : State) : exec (.bitC isa) s =
    onSample s (acceptBit s.cfg true isa) := rfl

theorem exec_bitD (iwa : Bool) (s : State) : exec (.bitD iwa) s =
    onSample s (acceptBit s.cfg true iwa) := rfl

theorem exec_switchC (isa : Bool) (s : State) : exec (.switchC isa) s =
    onSample s fun w => acceptBit s.cfg true isa (enterChannel true w) := rfl

theorem exec_switchD (iwa : Bool) (s : State) : exec (.switchD iwa) s =
    onSample s fun w => acceptBit s.cfg true iwa (enterChannel false w) := rfl

/-! ### Operations without a bit -/

section
variable {s t : State} {p2 : Bool}

/-- PWO_LOW_IDLE may write `in_command`, but its row applies only where that is false already. -/
theorem pwoLowIdle_frame (h : exec (.pwoLowIdle p2) s = .next t) :
    t.outq = s.outq ∧ t.dec.bits = s.dec.bits ∧ t.dec.lastSync = s.dec.lastSync ∧
    t.dec.run = s.dec.run ∧ t.dec.faultCause = s.dec.faultCause ∧
    (s.dec.inCommand = false → t.dec.inCommand = s.dec.inCommand) := by
  rw [exec_pwoLowIdle] at h
  obtain rfl | ⟨-, rfl⟩ := onSample_cases h
  · simp
  · exact ⟨by simp, rfl, rfl, rfl, rfl, Eq.symm⟩

/-- A step that only finishes the sample writes `last_p2` and `since_last` (R84, R85). -/
theorem onSample_finishSample_frame (h : onSample s (finishSample s.cfg p2) = .next t) :
    t.outq = s.outq ∧ t.dec.bits = s.dec.bits ∧ t.dec.lastSync = s.dec.lastSync ∧
    t.dec.run = s.dec.run ∧ t.dec.faultCause = s.dec.faultCause ∧
    t.dec.inCommand = s.dec.inCommand := by
  obtain rfl | ⟨-, rfl⟩ := onSample_cases h <;> simp

theorem pwoLowEnd_frame (h : exec (.pwoLowEnd p2) s = .next t) :
    t.dec.lastSync = s.dec.lastSync ∧ t.dec.run = s.dec.run ∧
    t.dec.faultCause = s.dec.faultCause := by
  rw [exec_pwoLowEnd] at h
  obtain rfl | ⟨-, rfl⟩ := onSample_cases h <;> simp

end

/-- Settles O53: the first three operations only finish the sample, but for the `in_command` of
PWO_LOW_IDLE, and the flush of PWO_LOW_END writes only `bits` and the queue. -/
theorem frameOfOperationsWithoutABit : Obligations.FrameOfOperationsWithoutABit := by
  intro p2 s t
  refine ⟨?_, pwoLowEnd_frame⟩
  simp only [List.forall_mem_cons, List.not_mem_nil, false_implies, implies_true, and_true,
    exec_strobeLow, exec_strobeHeld]
  refine ⟨fun h => ?_, fun h => ?_, fun h => ?_⟩
  · simpa using pwoLowIdle_frame h
  · simpa using onSample_finishSample_frame h
  · simpa using onSample_finishSample_frame h

/-! ### Operations that accept a bit -/

/-- With room accepting a bit raises no fault. -/
theorem acceptBit_run_of_room {cfg : Config} {w : Work} (hroom : full cfg w.dec.bits = false)
    (p2 b : Bool) : (acceptBit cfg p2 b w).dec.run = w.dec.run ∧
    (acceptBit cfg p2 b w).dec.faultCause = w.dec.faultCause := by
  rw [acceptBit_dec_of_room hroom]
  exact ⟨rfl, rfl⟩

/-- Right after a channel switch there is room, so accepting the bit raises no fault. -/
theorem acceptBit_enterChannel_run {cfg : Config} (hcap : cfg.bitsCap.positive = true)
    (p2 b sync : Bool) (w : Work) :
    (acceptBit cfg p2 b (enterChannel sync w)).dec.run = w.dec.run ∧
    (acceptBit cfg p2 b (enterChannel sync w)).dec.faultCause = w.dec.faultCause := by
  have hroom : full cfg (enterChannel sync w).dec.bits = false := by
    rw [enterChannel_bits, full_nil hcap]
  simpa using acceptBit_run_of_room hroom p2 b

section
variable {s t : State} {b sync : Bool}

/-- A bit of the command's own channel leaves the framing; with room it raises no fault, and on a full
accumulator it raises the fault and writes nothing else of the record but the ghost count (R88, R89). -/
theorem onSample_acceptBit_frame (h : onSample s (acceptBit s.cfg true b) = .next t) :
    t.outq = s.outq ∧ t.dec.inCommand = s.dec.inCommand ∧ t.dec.lastSync = s.dec.lastSync ∧
    (s.cfg.bitsCap ≠ .finite s.dec.bits.length →
      t.dec.run = s.dec.run ∧ t.dec.faultCause = s.dec.faultCause) ∧
    (s.cfg.bitsCap = .finite s.dec.bits.length →
      t.dec.bits = s.dec.bits ∧ t.dec.lastP2 = s.dec.lastP2 ∧
      t.dec.sinceLast = s.dec.sinceLast) := by
  obtain rfl | ⟨-, rfl⟩ := onSample_cases h
  · simp
  · refine ⟨by simp, by simp, by simp, fun hroom => ?_, fun hcap => ?_⟩
    · rw [Ne, ← full_eq_true, Bool.not_eq_true] at hroom
      exact acceptBit_run_of_room hroom true b
    · have hfull : full s.cfg s.dec.bits = true := (full_eq_true s.cfg s.dec.bits).mpr hcap
      rw [absorb_dec, acceptBit_dec_of_full hfull]
      exact ⟨rfl, rfl, rfl⟩

/-- A command start leaves the run state, since its bit is the first one held (R86, R87). -/
theorem onSample_start_frame (hcap : s.cfg.bitsCap.positive = true)
    (h : (onSample s fun w => acceptBit s.cfg true b (enterChannel sync (startCommand w))) =
      .next t) :
    t.dec.run = s.dec.run ∧ t.dec.faultCause = s.dec.faultCause := by
  obtain rfl | ⟨-, rfl⟩ := onSample_cases h
  · exact ⟨rfl, rfl⟩
  · exact acceptBit_enterChannel_run hcap true b sync _

/-- A channel switch stays in the command and leaves the run state, since its bit is the first one held
after the flush (R90, R91). -/
theorem onSample_switch_frame (hcap : s.cfg.bitsCap.positive = true)
    (h : (onSample s fun w => acceptBit s.cfg true b (enterChannel sync w)) = .next t) :
    t.dec.inCommand = s.dec.inCommand ∧ t.dec.run = s.dec.run ∧
    t.dec.faultCause = s.dec.faultCause := by
  obtain rfl | ⟨-, rfl⟩ := onSample_cases h
  · exact ⟨rfl, rfl, rfl⟩
  · exact ⟨by simp, acceptBit_enterChannel_run hcap true b sync _⟩

end

/-- Settles O54: the C and D operation of each pair differ only in the channel they enter. -/
theorem frameOfOperationsWithABit : Obligations.FrameOfOperationsWithABit := by
  intro b s t hwf
  have hcap : s.cfg.bitsCap.positive = true := bitsCap_positive hwf
  simp only [List.forall_mem_cons, List.not_mem_nil, false_implies, implies_true, and_true,
    exec_bitC, exec_bitD, exec_startC, exec_startD, exec_switchC, exec_switchD]
  exact ⟨⟨onSample_acceptBit_frame, onSample_acceptBit_frame⟩,
    ⟨onSample_start_frame hcap, onSample_start_frame hcap⟩,
    ⟨onSample_switch_frame hcap, onSample_switch_frame hcap⟩⟩

end Sys2Proof.Machine
end

section
/-! The line handshake (R57): what the ports show and what a cycle does while a line is queued. -/
namespace Sys2Proof.Machine

/-! ### The ports -/

theorem lValid_eq_true_iff {s : State} {rst : Bool} :
    lValid s rst = true ↔ rst = false ∧ s.outq ≠ [] := by
  rw [lValid, Bool.and_eq_true, Bool.not_eq_true', decide_eq_true_eq]

/-- With `rst = 0` the head of the queue is on the line port. -/
theorem linePort_of_outq_cons {s : State} {l : Line} {ls : List Line} (h : s.outq = l :: ls) :
    linePort s false = some (drive l) := by
  simp [linePort, h]

/-- While a line is queued the block is not ready. -/
theorem sReady_of_outq_ne_nil {s : State} (h : s.outq ≠ []) (rst : Bool) :
    sReady s rst = false := by
  simp [sReady, h]

/-! ### The coming cycle -/

theorem pinsNow_of_feed_cons {s : State} {p : Pins} {rest : List Pins} (h : s.feed = p :: rest) :
    pinsNow s = p := by
  simp [pinsNow, h]

theorem nextCycle_of_feed_cons {s : State} {p : Pins} {rest : List Pins}
    (h : s.feed = p :: rest) : nextCycle s = { s with feed := rest } := by
  simp [nextCycle, h]

/-- With neither `rst` nor `s_ready` no event is taken. -/
theorem takenEvent_eq_none_of_not_ready {s : State} (hrst : (pinsNow s).rst = false)
    (hready : sReady s false = false) : takenEvent s = none := by
  simp [takenEvent, fetch, hrst, hready]

/-! ### The handshake -/

/-- A ready sink takes the head of the queue. -/
theorem handshake_true_of_outq_cons {s : State} {l : Line} {ls : List Line}
    (h : s.outq = l :: ls) :
    handshake true s = { s with outq := ls, delivered := s.delivered ++ [l] } := by
  simp [handshake, h]

/-- Without the sink the queue stays as it is. -/
@[simp] theorem handshake_false (s : State) : handshake false s = s := by
  unfold handshake
  split <;> rfl

/-- Settles O25: a queued line keeps `s_ready` at 0, so without `rst` the cycle takes no event and is
the line handshake alone. -/
theorem handshakeMovesTheHeadOrNothing : Obligations.HandshakeMovesTheHeadOrNothing := by
  intro s p rest l ls hfeed hq hrst
  have hpins : pinsNow s = p := pinsNow_of_feed_cons hfeed
  have hne : s.outq ≠ [] := by simp [hq]
  have htaken : takenEvent s = none :=
    takenEvent_eq_none_of_not_ready (hpins ▸ hrst) (sReady_of_outq_ne_nil hne false)
  have hstep : step s = .next (handshake p.lReady { s with feed := rest }) := by
    rw [step_of_takenEvent_eq_none htaken, hpins, nextCycle_of_feed_cons hfeed]
  refine ⟨fun _ _ => lValid_eq_true_iff, hrst ▸ linePort_of_outq_cons hq,
    sReady_of_outq_ne_nil hne p.rst, htaken, fun hl => ?_, fun hl => ?_⟩
  · rw [hstep, hl, handshake_true_of_outq_cons (s := { s with feed := rest }) hq]
  · rw [hstep, hl, handshake_false]

end Sys2Proof.Machine
end

section
/-! The sample format (R58, R59, R62): the five signals are the bits under the masks of R59, a sample is
read through them alone, and the canonical sample of a combination of signals has exactly those. -/
namespace Sys2Proof.Machine

/-! ### Masks -/

theorem and_0x20_eq (smp : Nat) : smp &&& 0x20 = (extract smp).pwo.toNat * 0x20 :=
  Nat.and_two_pow smp 5

theorem and_0x10_eq (smp : Nat) : smp &&& 0x10 = (extract smp).p2.toNat * 0x10 :=
  Nat.and_two_pow smp 4

theorem and_0x80_eq (smp : Nat) : smp &&& 0x80 = (extract smp).sync.toNat * 0x80 :=
  Nat.and_two_pow smp 7

theorem and_0x04_eq (smp : Nat) : smp &&& 0x04 = (extract smp).isa.toNat * 0x04 :=
  Nat.and_two_pow smp 2

theorem and_0x02_eq (smp : Nat) : smp &&& 0x02 = (extract smp).iwa.toNat * 0x02 :=
  Nat.and_two_pow smp 1

/-- A Boolean times a positive weight is not 0 exactly when it is true. -/
theorem eq_true_iff_toNat_mul_ne_zero (b : Bool) {k : Nat} (hk : k ≠ 0) :
    b = true ↔ b.toNat * k ≠ 0 := by
  cases b <;> simp [hk]

/-- Settles O35: under a one-bit mask a sample leaves the weight of the signal's bit, or 0. -/
theorem signalsAreTheMaskedBits : Obligations.SignalsAreTheMaskedBits := by
  intro smp
  rw [and_0x20_eq, and_0x10_eq, and_0x80_eq, and_0x04_eq, and_0x02_eq]
  exact ⟨eq_true_iff_toNat_mul_ne_zero _ (by decide), eq_true_iff_toNat_mul_ne_zero _ (by decide),
    eq_true_iff_toNat_mul_ne_zero _ (by decide), eq_true_iff_toNat_mul_ne_zero _ (by decide),
    eq_true_iff_toNat_mul_ne_zero _ (by decide)⟩

/-! ### The signals of a sample -/

/-- The signals are bits 1, 2, 4, 5 and 7, and no other (R60). -/
theorem extract_eq_extract {a b : Nat} (h : ∀ k ∈ [1, 2, 4, 5, 7], a.testBit k = b.testBit k) :
    extract a = extract b := by
  simp only [List.forall_mem_cons] at h
  obtain ⟨h1, h2, h4, h5, h7, -⟩ := h
  simp only [extract, h1, h2, h4, h5, h7]

/-- A sample step reads its sample only through the signals. -/
theorem sampleStep_eq_of_extract_eq {a b : Nat} (h : extract a = extract b) (cfg : Config) (w : Work) :
    sampleStep cfg a w = sampleStep cfg b w := by
  simp only [sampleStep, h]

/-- SAMPLE is a SAMPLE step of the state by the pseudocode of R76. -/
theorem exec_sample (smp : Nat) (s : State) :
    exec (.sample smp) s = onSample s (sampleStep s.cfg smp) := by
  rw [onSample_eq_absorb]
  rfl

/-- Settles O34: the step reads only the signals, and they are read off the five bits. -/
theorem unusedSampleBitsChangeNothing : Obligations.UnusedSampleBitsChangeNothing := by
  intro s a b h
  have hstep : sampleStep s.cfg a = sampleStep s.cfg b :=
    funext (sampleStep_eq_of_extract_eq (extract_eq_extract h) s.cfg)
  rw [exec_sample, exec_sample, hstep]

/-! ### Canonical samples -/

@[simp] theorem extract_canon (sg : Signals) : extract (canon sg) = sg := by
  have hall : ∀ pwo p2 sync isa iwa : Bool,
      extract (canon ⟨pwo, p2, sync, isa, iwa⟩) = ⟨pwo, p2, sync, isa, iwa⟩ := by decide
  exact hall sg.pwo sg.p2 sg.sync sg.isa sg.iwa

/-- A canonical sample is a word of 8 bits. -/
theorem canon_lt (sg : Signals) : canon sg < 2 ^ 8 := by
  have hall : ∀ pwo p2 sync isa iwa : Bool, canon ⟨pwo, p2, sync, isa, iwa⟩ < 2 ^ 8 := by decide
  exact hall sg.pwo sg.p2 sg.sync sg.isa sg.iwa

end Sys2Proof.Machine
end

section
/-! The event inputs (R64, R65): the CTL4 vector of the pins, and the pins a numbered CTL4 word stands
for. -/
namespace Sys2Proof.Machine

/-- Which values of the event inputs each CTL4 row matches: its bit is 1 and those above it are 0. -/
theorem ctlWord_and_eq_iff (p : Pins) :
    (ctlWord p &&& 0x8 = 0x8 ↔ p.rst = true) ∧
    (ctlWord p &&& 0xC = 0x4 ↔ p.rst = false ∧ p.intr = true) ∧
    (ctlWord p &&& 0xE = 0x2 ↔ p.rst = false ∧ p.intr = false ∧ p.sEnd = true) ∧
    (ctlWord p &&& 0xF = 0x1 ↔
      p.rst = false ∧ p.intr = false ∧ p.sEnd = false ∧ p.sValid = true) ∧
    (ctlWord p &&& 0xF = 0x0 ↔
      p.rst = false ∧ p.intr = false ∧ p.sEnd = false ∧ p.sValid = false) := by
  unfold ctlWord
  generalize p.rst = rst, p.intr = intr, p.sEnd = sEnd, p.sValid = sValid
  revert rst intr sEnd sValid
  decide

/-- Settles O30, input by input in the order of R65: the row of the first input that is 1 matches, and
no other. -/
theorem eventTablePartitionsInputs : Obligations.EventTablePartitionsInputs := by
  intro p
  obtain ⟨hreset, hinterrupt, hsourceEnd, hsample, hidle⟩ := ctlWord_and_eq_iff p
  simp only [ctlTable, hreset, hinterrupt, hsourceEnd, hsample, hidle, List.filter_cons,
    List.filter_nil, decodeCtl]
  cases p.rst
  case true => simp
  cases p.intr
  case true => simp
  cases p.sEnd
  case true => simp
  cases p.sValid
  case true => simp
  simp

/-- The event inputs are the bits of their vector (R64). -/
theorem ctlWord_bits (p : Pins) :
    ctlWord p < 2 ^ 4 ∧ (ctlWord p).testBit 3 = p.rst ∧ (ctlWord p).testBit 2 = p.intr ∧
    (ctlWord p).testBit 1 = p.sEnd ∧ (ctlWord p).testBit 0 = p.sValid := by
  unfold ctlWord
  generalize p.rst = rst, p.intr = intr, p.sEnd = sEnd, p.sValid = sValid
  revert rst intr sEnd sValid
  decide

/-- The CTL4 bits of some pins with their `s_data` word above stand for those pins (log entry 5). -/
theorem pinsOfWord_ctlWord (p : Pins) :
    pinsOfWord .ctl4 (ctlWord p + 16 * p.sData) = { p with lReady := false } := by
  obtain ⟨hlt, hrst, hintr, hsEnd, hsValid⟩ := ctlWord_bits p
  have hlow : ∀ k < 4, (ctlWord p + 16 * p.sData).testBit k = (ctlWord p).testBit k := by
    intro k hk
    rw [Nat.add_comm, show (16 : Nat) = 2 ^ 4 from rfl, Nat.testBit_two_pow_mul_add _ hlt, if_pos hk]
  have hhigh : (ctlWord p + 16 * p.sData) / 16 = p.sData := by omega
  simp [pinsOfWord, hlow, hhigh, hrst, hintr, hsEnd, hsValid]

end Sys2Proof.Machine
end

section
/-! Decoding the encoding of an instruction gives it back (R62, R65, R67). -/
namespace Sys2Proof.Machine

/-! ### Operations -/

/-- The canonical sample of an operation selects it wherever its row's state condition holds. -/
theorem decodeOp_encode {v : View} {i : Instr} (hfmt : (encode i).1 = .smp8)
    (hsel : i.selectable v = true) : decodeOp v (encode i).2 = i := by
  cases i with
  | pwoLowIdle | pwoLowEnd | strobeLow | strobeHeld =>
    simp_all [Instr.selectable, encode, decodeOp, opSignals]
  | startC | startD | bitC | bitD | switchC | switchD =>
    simp_all [Instr.selectable, encode, decodeOp, opSignals, tri]
  | reset | interrupt | sourceEnd | sample | idle => cases hfmt

/-- A word of 8 bits fits every sample width in range (R8, R58). -/
theorem sampleFits_of_lt {c : Config} {w : Nat} (hwf : c.wf = true) (hw : w < 2 ^ 8) :
    sampleFits c w = true := by
  simp only [Config.wf, Bool.and_eq_true, decide_eq_true_eq] at hwf
  obtain ⟨⟨⟨hwidth, -⟩, -⟩, -⟩ := hwf
  exact decide_eq_true (hw.trans_le (Nat.pow_le_pow_right (by decide) hwidth))

/-- The encoding of an operation is a canonical sample. -/
theorem encode_lt {i : Instr} (hfmt : (encode i).1 = .smp8) : (encode i).2 < 2 ^ 8 := by
  cases i with
  | pwoLowIdle | pwoLowEnd | strobeLow | strobeHeld | startC | startD | bitC | bitD | switchC
  | switchD => exact canon_lt _
  | reset | interrupt | sourceEnd | sample | idle => cases hfmt

/-! ### Events -/

/-- The encoding of a well-formed event is the vector of some pins that offer it, their `s_data` word
above. -/
theorem encode_ctl4 {c : Config} {i : Instr} (hwf : c.wf = true) (hi : i.wf c = true)
    (hfmt : (encode i).1 = .ctl4) :
    ∃ p : Pins, p.wf c = true ∧ (encode i).2 = ctlWord p + 16 * p.sData ∧ decodeCtl p = i := by
  have hzero : sampleFits c 0 = true := sampleFits_of_lt hwf (by decide)
  cases i with
  | reset => exact ⟨eventPins true false false false 0, hzero, rfl, rfl⟩
  | interrupt => exact ⟨eventPins false true false false 0, hzero, rfl, rfl⟩
  | sourceEnd => exact ⟨eventPins false false true false 0, hzero, rfl, rfl⟩
  | sample smp => exact ⟨eventPins false false false true smp, hi, rfl, rfl⟩
  | idle => exact ⟨eventPins false false false false 0, hzero, rfl, rfl⟩
  | pwoLowIdle | pwoLowEnd | strobeLow | strobeHeld | startC | startD | bitC | bitD | switchC
  | switchD => cases hfmt

/-- A vector with an `s_data` word that fits decodes to the event its pins select. -/
theorem decode_ctlWord {c : Config} {p : Pins} (hp : p.wf c = true) (v : View) :
    decode c v .ctl4 (ctlWord p + 16 * p.sData) = .ok (decodeCtl p) := by
  have hfits : sampleFits c p.sData = true := hp
  have hpins := pinsOfWord_ctlWord p
  have hdata : (ctlWord p + 16 * p.sData) / 16 = p.sData := congrArg Pins.sData hpins
  rw [decode, hdata, if_pos hfits, hpins]
  rfl

/-! ### The round trip -/

/-- Settles O32, format by format: the word fits the port, and it selects the operation, or carries the
pins that offer the event. -/
theorem decodeOfEncodeIsTheInstruction : Obligations.DecodeOfEncodeIsTheInstruction := by
  intro c v i hwf hi hsel
  cases hfmt : (encode i).1 with
  | smp8 =>
    have hfits : sampleFits c (encode i).2 = true := sampleFits_of_lt hwf (encode_lt hfmt)
    rw [decode, if_pos hfits, decodeOp_encode hfmt hsel]
  | ctl4 =>
    obtain ⟨p, hp, hword, hdec⟩ := encode_ctl4 hwf hi hfmt
    rw [hword, decode_ctlWord hp, hdec]

/-- Settles O31: each word is decoded as it is written. -/
theorem wordsDecodeAsTheTableSays : Obligations.WordsDecodeAsTheTableSays :=
  ⟨rfl, rfl, rfl, rfl, rfl, rfl, rfl, rfl, rfl, rfl, rfl⟩

end Sys2Proof.Machine
end

section
/-! The operation a sample selects (R66 to R68): exactly one row of the table applies, and a SAMPLE step
does what that row's operation does. Both follow the tests of `decode_op` in their order. -/
namespace Sys2Proof.Machine

/-! ### The table -/

/-- Which signals each pattern of R67 stands for. -/
theorem and_mask_eq_iff (smp : Nat) :
    (smp &&& 0x20 = 0x00 ↔ (extract smp).pwo = false) ∧
    (smp &&& 0x30 = 0x20 ↔ (extract smp).pwo = true ∧ (extract smp).p2 = false) ∧
    (smp &&& 0x30 = 0x30 ↔ (extract smp).pwo = true ∧ (extract smp).p2 = true) ∧
    (smp &&& 0xB0 = 0xB0 ↔
      (extract smp).pwo = true ∧ (extract smp).p2 = true ∧ (extract smp).sync = true) ∧
    (smp &&& 0xB0 = 0x30 ↔
      (extract smp).pwo = true ∧ (extract smp).p2 = true ∧ (extract smp).sync = false) := by
  have h30 : smp &&& 0x30 = smp &&& 0x20 ||| smp &&& 0x10 := Nat.and_or_distrib_left smp 0x20 0x10
  have hB0 : smp &&& 0xB0 = smp &&& 0x80 ||| smp &&& 0x30 := Nat.and_or_distrib_left smp 0x80 0x30
  rw [hB0, h30, and_0x20_eq, and_0x10_eq, and_0x80_eq]
  generalize (extract smp).pwo = pwo, (extract smp).p2 = p2, (extract smp).sync = sync
  revert pwo p2 sync
  decide

/-- Settles O29, test by test of `decode_op`: each outcome leaves one row whose pattern and state
condition both hold. -/
theorem operationTablePartitionsSamples : Obligations.OperationTablePartitionsSamples := by
  intro v smp
  obtain ⟨hpwoLow, hstrobeLow, hstrobe, hchannelC, hchannelD⟩ := and_mask_eq_iff smp
  simp only [opTable, OpRow.applies, hpwoLow, hstrobeLow, hstrobe, hchannelC, hchannelD,
    Instr.selectable, List.filter_cons, List.filter_nil, decodeOp]
  cases (extract smp).pwo
  case false => cases v.inCommand <;> simp
  cases (extract smp).p2
  case false => simp
  by_cases hheld : v.lastP2 = .t
  · simp [hheld]
  cases v.inCommand
  case false => cases (extract smp).sync <;> simp [hheld]
  cases (extract smp).sync
  case false => by_cases hsame : v.lastSync = .f <;> simp [hheld, hsame, tri]
  case true => by_cases hsame : v.lastSync = .t <;> simp [hheld, hsame, tri]

/-- The operation a sample selects is one of a row that applies. -/
theorem exists_row_of_decodeOp (v : View) (smp : Nat) :
    ∃ r ∈ opTable, r.applies v smp = true ∧ r.op (extract smp) = decodeOp v smp := by
  have hmem : decodeOp v smp ∈
      (opTable.filter (OpRow.applies v smp)).map (fun r => r.op (extract smp)) := by
    rw [operationTablePartitionsSamples v smp]
    exact List.mem_singleton_self _
  obtain ⟨r, hr, hop⟩ := List.mem_map.mp hmem
  exact ⟨r, (List.mem_filter.mp hr).1, (List.mem_filter.mp hr).2, hop⟩

/-- The state condition of the selected operation's row holds. -/
theorem decodeOp_selectable (v : View) (smp : Nat) : (decodeOp v smp).selectable v = true := by
  obtain ⟨r, -, happlies, hop⟩ := exists_row_of_decodeOp v smp
  exact hop ▸ (Bool.and_eq_true_iff.mp happlies).2

/-- The selected operation is encoded as a sample. -/
theorem encode_decodeOp_format (v : View) (smp : Nat) : (encode (decodeOp v smp)).1 = .smp8 := by
  have hrows : ∀ r ∈ opTable, ∀ sg, (encode (r.op sg)).1 = .smp8 := by simp [opTable, encode]
  obtain ⟨r, hr, -, hop⟩ := exists_row_of_decodeOp v smp
  exact hop ▸ hrows r hr (extract smp)

/-! ### The tests of `decode_op` -/

section
variable {d : Decoder} {smp : Nat}

/-- A bit is accepted where none of the first three tests of `decode_op` holds (R66, R76). -/
theorem accepts_iff : accepts d smp = true ↔
    (extract smp).pwo = true ∧ (extract smp).p2 = true ∧ d.lastP2 ≠ .t := by
  simp [accepts, edge]

theorem decodeOp_of_pwo_low (h : (extract smp).pwo = false) :
    decodeOp d.view smp =
      if d.inCommand then .pwoLowEnd (extract smp).p2 else .pwoLowIdle (extract smp).p2 := by
  simp only [decodeOp, h]
  rfl

theorem decodeOp_of_pwo_high (hpwo : (extract smp).pwo = true) (h : accepts d smp = false) :
    decodeOp d.view smp = if (extract smp).p2 then .strobeHeld else .strobeLow := by
  cases hp2 : (extract smp).p2
  · simp [decodeOp, hpwo, hp2]
  · have hheld : d.lastP2 = .t := by simpa [accepts, edge, hpwo, hp2] using h
    simp [decodeOp, hpwo, hp2, hheld]

theorem decodeOp_of_start (h : accepts d smp = true) (hidle : d.inCommand = false) :
    decodeOp d.view smp =
      if (extract smp).sync then .startC (extract smp).isa else .startD (extract smp).iwa := by
  simp [decodeOp, accepts_iff.mp h, hidle]

theorem decodeOp_of_same_channel (h : accepts d smp = true) (hcmd : d.inCommand = true)
    (hsame : d.lastSync = tri (extract smp).sync) :
    decodeOp d.view smp =
      if (extract smp).sync then .bitC (extract smp).isa else .bitD (extract smp).iwa := by
  simp [decodeOp, accepts_iff.mp h, hcmd, hsame]

theorem decodeOp_of_switch (h : accepts d smp = true) (hcmd : d.inCommand = true)
    (hother : d.lastSync ≠ tri (extract smp).sync) :
    decodeOp d.view smp =
      if (extract smp).sync then .switchC (extract smp).isa else .switchD (extract smp).iwa := by
  simp [decodeOp, accepts_iff.mp h, hcmd, hother]

end

/-! ### The operations by pairs, which differ in one signal or in whether a command is open -/

section
variable (sg : Signals) (s : State)

theorem exec_pwoLow (inCommand : Bool) :
    exec (if inCommand then .pwoLowEnd sg.p2 else .pwoLowIdle sg.p2) s = onSample s fun w =>
      finishSample s.cfg sg.p2 (setInCommand false (if inCommand then flush w else w)) := by
  cases inCommand <;> rfl

theorem exec_strobe (p2 : Bool) :
    exec (if p2 then .strobeHeld else .strobeLow) s = onSample s (finishSample s.cfg p2) := by
  cases p2 <;> rfl

theorem exec_start :
    exec (if sg.sync then .startC sg.isa else .startD sg.iwa) s = onSample s fun w =>
      acceptBit s.cfg true (selectedBit sg) (enterChannel sg.sync (startCommand w)) := by
  unfold selectedBit
  cases sg.sync <;> rfl

theorem exec_bit :
    exec (if sg.sync then .bitC sg.isa else .bitD sg.iwa) s =
      onSample s (acceptBit s.cfg true (selectedBit sg)) := by
  unfold selectedBit
  cases sg.sync <;> rfl

theorem exec_switch :
    exec (if sg.sync then .switchC sg.isa else .switchD sg.iwa) s = onSample s fun w =>
      acceptBit s.cfg true (selectedBit sg) (enterChannel sg.sync w) := by
  unfold selectedBit
  cases sg.sync <;> rfl

end

/-! ### The pseudocode of a SAMPLE step -/

section
variable {cfg : Config} {w : Work} {smp : Nat}

theorem sampleStep_of_start (h : accepts w.dec smp = true) (hidle : w.dec.inCommand = false) :
    sampleStep cfg smp w = acceptBit cfg true (selectedBit (extract smp))
      (enterChannel (extract smp).sync (startCommand w)) := by
  have hstart : ensureCommand w = startCommand w := by simp [ensureCommand, hidle]
  have hswitched : switched (startCommand w).dec.lastSync (extract smp).sync = true :=
    decide_eq_true (tri_ne_u _).symm
  rw [sampleStep_of_accepts h, hstart, ensureChannel, if_pos hswitched, (accepts_iff.mp h).2.1]

theorem sampleStep_of_same_channel (h : accepts w.dec smp = true) (hcmd : w.dec.inCommand = true)
    (hsame : w.dec.lastSync = tri (extract smp).sync) :
    sampleStep cfg smp w = acceptBit cfg true (selectedBit (extract smp)) w := by
  rw [sampleStep_of_accepts h, (accepts_iff.mp h).2.1]
  simp [ensureCommand, ensureChannel, switched, hcmd, hsame]

theorem sampleStep_of_switch (h : accepts w.dec smp = true) (hcmd : w.dec.inCommand = true)
    (hother : w.dec.lastSync ≠ tri (extract smp).sync) :
    sampleStep cfg smp w = acceptBit cfg true (selectedBit (extract smp))
      (enterChannel (extract smp).sync w) := by
  rw [sampleStep_of_accepts h, (accepts_iff.mp h).2.1]
  simp [ensureCommand, ensureChannel, switched, hcmd, hother]

end

/-- A SAMPLE step depends on its effect only at the record it begins with. -/
theorem onSample_congr {s : State} {f g : Work → Work}
    (h : f (beginWork (countSample s.dec)) = g (beginWork (countSample s.dec))) :
    onSample s f = onSample s g := by
  rw [onSample_eq_absorb, onSample_eq_absorb, h]

/-- Settles O15, test by test of `decode_op`: there the pseudocode of R76 takes the branches that the
selected operation's own rule writes out. -/
theorem sampleStepIsTheSelectedOperation : Obligations.SampleStepIsTheSelectedOperation := by
  intro s smp
  rw [exec_sample]
  cases hpwo : (extract smp).pwo
  case false =>
    rw [decodeOp_of_pwo_low hpwo, exec_pwoLow]
    exact onSample_congr (by simp only [sampleStep, hpwo]; rfl)
  cases hacc : accepts s.dec smp
  case false =>
    rw [decodeOp_of_pwo_high hpwo hacc, exec_strobe]
    exact onSample_congr (sampleStep_of_pwo_high hpwo hacc)
  cases hcmd : s.dec.inCommand
  case false =>
    rw [decodeOp_of_start hacc hcmd, exec_start]
    exact onSample_congr (sampleStep_of_start hacc hcmd)
  by_cases hsame : s.dec.lastSync = tri (extract smp).sync
  · rw [decodeOp_of_same_channel hacc hcmd hsame, exec_bit]
    exact onSample_congr (sampleStep_of_same_channel hacc hcmd hsame)
  · rw [decodeOp_of_switch hacc hcmd hsame, exec_switch]
    exact onSample_congr (sampleStep_of_switch hacc hcmd hsame)

/-- Settles O33: the canonical sample selects the same operation, and a SAMPLE step is that
operation. -/
theorem canonicalSampleHasTheSameEffect : Obligations.CanonicalSampleHasTheSameEffect := by
  intro s smp
  have hcanon : decodeOp s.dec.view (encode (decodeOp s.dec.view smp)).2 = decodeOp s.dec.view smp :=
    decodeOp_encode (encode_decodeOp_format _ smp) (decodeOp_selectable _ smp)
  rw [sampleStepIsTheSelectedOperation, hcanon, ← sampleStepIsTheSelectedOperation]

end Sys2Proof.Machine
end

section
/-! The event of a cycle (R65), and what the cycle does. -/
namespace Sys2Proof.Machine

/-! ### The event taken -/

theorem sReady_eq_true_iff {s : State} {rst : Bool} :
    sReady s rst = true ↔ rst = false ∧ s.dec.run = .run ∧ s.outq = [] := by
  simp [sReady, and_assoc]

section
variable {s : State} {p : Pins} {rest : List Pins} (hfeed : s.feed = p :: rest)
include hfeed

/-- With `rst` or `s_ready` the instruction the pins decode to is taken. -/
theorem fetch_of_ready (hready : p.rst = true ∨ sReady s p.rst = true) :
    fetch s = some (decodeCtl p) := by
  have hpins : pinsNow s = p := pinsNow_of_feed_cons hfeed
  exact fetch_eq_some_iff.mpr ⟨by rwa [hpins], by rw [hpins]⟩

theorem takenEvent_of_ready (hready : p.rst = true ∨ sReady s p.rst = true) :
    takenEvent s = eventOf (decodeCtl p) := by
  rw [takenEvent, fetch_of_ready hfeed hready]
  rfl

/-- With neither the cycle is the line handshake alone, whatever the event pins are. -/
theorem stalled_cycle (hrst : p.rst = false) (hready : sReady s p.rst = false) :
    takenEvent s = none ∧ step s = .next (handshake p.lReady { s with feed := rest }) := by
  have hpins : pinsNow s = p := pinsNow_of_feed_cons hfeed
  have htaken : takenEvent s = none :=
    takenEvent_eq_none_of_not_ready (hpins ▸ hrst) (hrst ▸ hready)
  exact ⟨htaken, by rw [step_of_takenEvent_eq_none htaken, hpins, nextCycle_of_feed_cons hfeed]⟩

end

/-- Settles O23: a ready cycle takes the event of the pins, and a stalled one the line handshake, which
reads no event pin. -/
theorem eventPriorityOfACycle : Obligations.EventPriorityOfACycle := by
  intro s p rest hfeed
  refine ⟨sReady_eq_true_iff, fun hrst => ?_, fun hrst hready => ?_, fun hrst hready => ?_⟩
  · rw [takenEvent_of_ready hfeed (.inl hrst)]
    simp [decodeCtl, eventOf, hrst]
  · rw [takenEvent_of_ready hfeed (.inr hready)]
    simp +contextual [decodeCtl, eventOf, hrst]
  · obtain ⟨htaken, hstep⟩ := stalled_cycle hfeed hrst hready
    exact ⟨htaken, hstep.trans (stalled_cycle
      (s := { s with feed := { p with intr := false, sEnd := false } :: rest }) rfl hrst hready).2.symm⟩

/-! ### The step -/

/-- Settles O24: the instruction fetched is the one the pins decode to, and SAMPLE is the operation its
sample selects. -/
theorem stepRunsTheDecodedInstruction : Obligations.StepRunsTheDecodedInstruction := by
  intro s p rest hfeed hready
  have hstep : step s = exec (decodeCtl p) { s with feed := rest } := by
    simp only [step, fetch_of_ready hfeed hready, nextCycle_of_feed_cons hfeed]
  refine ⟨hstep, fun hsample => ?_⟩
  rw [hstep, hsample]
  exact sampleStepIsTheSelectedOperation _ p.sData

/-- Settles O50: a cycle takes an event or does the line handshake, and every instruction but RESET
absorbs a `Work`. -/
theorem everyStepAnswersANextState : Obligations.EveryStepAnswersANextState := by
  refine ⟨fun s => ?_, fun i s => ?_⟩
  · cases htaken : takenEvent s with
    | some e => exact ⟨_, step_of_takenEvent htaken, rfl, rfl⟩
    | none =>
      obtain ⟨-, hcfg, hfeed⟩ := handshake_rest (pinsNow s).lReady (nextCycle s)
      exact ⟨_, step_of_takenEvent_eq_none htaken, hcfg, hfeed⟩
  · by_cases hi : i = .reset
    · exact ⟨_, by rw [hi, exec_reset]⟩
    · obtain ⟨w, hw⟩ := exec_eq_absorb hi s
      exact ⟨absorb s w, hw⟩

end Sys2Proof.Machine
end

section
/-! The cycle level refines the abstract machine (R52, R73, R74): a cycle is at most one event of it, and
the line handshake moves no line into or out of the emitted sequence. -/
namespace Sys2Proof.Machine

/-! ### Runs of events, one event at a time -/

@[simp] theorem runEvents_nil (cfg : Config) (d : Decoder) : runEvents cfg d [] = beginWork d := rfl

@[simp] theorem runEvents_cons_dec (cfg : Config) (d : Decoder) (e : Event) (es : List Event) :
    (runEvents cfg d (e :: es)).dec = (runEvents cfg (eventStep cfg d e).dec es).dec := rfl

@[simp] theorem runEvents_cons_out (cfg : Config) (d : Decoder) (e : Event) (es : List Event) :
    (runEvents cfg d (e :: es)).out =
      (eventStep cfg d e).out ++ (runEvents cfg (eventStep cfg d e).dec es).out := rfl

/-! ### One cycle -/

/-- Without `rst` on the feed the coming cycle takes no RESET. -/
theorem takenEvent_ne_reset {s : State} (h : noReset s) : takenEvent s ≠ some .reset := by
  have hrst : (pinsNow s).rst = false := by
    cases hfeed : s.feed with
    | nil => simp [pinsNow, hfeed, quietPins]
    | cons p rest =>
      rw [pinsNow_of_feed_cons hfeed]
      exact h p (by simp [hfeed])
  intro htaken
  obtain ⟨i, hi, he⟩ := Option.bind_eq_some_iff.mp htaken
  obtain ⟨-, rfl⟩ := fetch_eq_some_iff.mp hi
  unfold decodeCtl at he
  split_ifs at he with h0
  · simp [hrst] at h0
  all_goals cases he

/-- A cycle without RESET that takes an event queues just the lines the event emits. -/
theorem emitted_takeEvent {s : State} {e : Event} (hreset : noReset s)
    (htaken : takenEvent s = some e) :
    emitted (takeEvent e (nextCycle s)) = emitted s ++ (eventStep s.cfg s.dec e).out := by
  obtain rfl | ⟨-, hq⟩ := takenEvent_cases htaken
  · exact absurd htaken (takenEvent_ne_reset hreset)
  · simp [takeEvent_eq_absorb (s := nextCycle s) hq, emitted, hq]

/-- One cycle is the abstract machine on the event taken, if any. -/
theorem step_refines (s : State) :
    ∃ t, step s = .next t ∧ t.cfg = s.cfg ∧ (noReset s → noReset t) ∧
      t.dec = (runEvents s.cfg s.dec (takenEvent s).toList).dec ∧
      (noReset s → emitted t = emitted s ++ (runEvents s.cfg s.dec (takenEvent s).toList).out) := by
  have hpast {t : State} (hfeed : t.feed = s.feed.tail) (h : noReset s) : noReset t := fun p hp =>
    h p (List.mem_of_mem_tail (hfeed ▸ hp))
  cases htaken : takenEvent s with
  | some e =>
    exact ⟨_, step_of_takenEvent htaken, rfl, hpast rfl, rfl,
      fun h => by simpa using emitted_takeEvent h htaken⟩
  | none =>
    obtain ⟨hdec, hcfg, hfeed⟩ := handshake_rest (pinsNow s).lReady (nextCycle s)
    exact ⟨_, step_of_takenEvent_eq_none htaken, hcfg, hpast hfeed, hdec,
      fun _ => by simpa [emitted] using handshake_lines (pinsNow s).lReady (nextCycle s)⟩

/-- Two lists of events in a row: the second begins with the record the first leaves. -/
theorem runEvents_append (cfg : Config) (d : Decoder) (es fs : List Event) :
    (runEvents cfg d (es ++ fs)).dec = (runEvents cfg (runEvents cfg d es).dec fs).dec ∧
    (runEvents cfg d (es ++ fs)).out =
      (runEvents cfg d es).out ++ (runEvents cfg (runEvents cfg d es).dec fs).out := by
  induction es generalizing d with
  | nil => simp
  | cons e es ih => simp [ih]

/-- Settles O28, by induction on the number of cycles. -/
theorem cyclesRefineTheAbstractMachine : Obligations.CyclesRefineTheAbstractMachine := by
  intro s k
  dsimp only
  induction k generalizing s with
  | zero => simp [runCycles, eventsTaken]
  | succ k ih =>
    obtain ⟨t, hstep, hcfg, hreset, hdec, hout⟩ := step_refines s
    obtain ⟨ihdec, ihout⟩ := ih t
    obtain ⟨happDec, happOut⟩ :=
      runEvents_append s.cfg s.dec (takenEvent s).toList (eventsTaken k t)
    rw [hcfg, hdec] at ihdec ihout
    simp only [runCycles, eventsTaken, hstep]
    refine ⟨ihdec.trans happDec.symm, fun h => ?_⟩
    rw [ihout (hreset h), hout h, happOut, List.append_assoc]

end Sys2Proof.Machine
end

section
/-! A sample as an event, and a run of samples (R74, R75): a halted block ignores them, so a run that ends
in `RUN` was in `RUN` throughout. -/
namespace Sys2Proof.Machine

section
variable {cfg : Config} {d : Decoder}

theorem eventStep_sample (hrun : d.run = .run) (smp : Nat) :
    eventStep cfg d (.sample smp) = sampleStep cfg smp (beginWork (countSample d)) := if_pos hrun

theorem eventStep_sample_of_halted (hhalt : d.run ≠ .run) (smp : Nat) :
    eventStep cfg d (.sample smp) = beginWork d := if_neg hhalt

@[simp] theorem runSamples_nil (cfg : Config) (d : Decoder) : runSamples cfg d [] = beginWork d := rfl

@[simp] theorem runSamples_cons_dec (cfg : Config) (d : Decoder) (smp : Nat) (smps : List Nat) :
    (runSamples cfg d (smp :: smps)).dec =
      (runSamples cfg (eventStep cfg d (.sample smp)).dec smps).dec := rfl

@[simp] theorem runSamples_cons_out (cfg : Config) (d : Decoder) (smp : Nat) (smps : List Nat) :
    (runSamples cfg d (smp :: smps)).out = (eventStep cfg d (.sample smp)).out ++
      (runSamples cfg (eventStep cfg d (.sample smp)).dec smps).out := rfl

/-- A halted block ignores every sample. -/
theorem runSamples_of_halted (hhalt : d.run ≠ .run) (smps : List Nat) :
    (runSamples cfg d smps).dec = d := by
  induction smps with
  | nil => rfl
  | cons smp smps ih => rw [runSamples_cons_dec, eventStep_sample_of_halted hhalt, beginWork_dec, ih]

/-- A run of samples that ends in `RUN` began in it. -/
theorem run_of_runSamples_run {smps : List Nat} (h : (runSamples cfg d smps).dec.run = .run) :
    d.run = .run := by
  by_contra hhalt
  rw [runSamples_of_halted hhalt] at h
  exact hhalt h

theorem run_of_sample_run {smp : Nat} (h : (eventStep cfg d (.sample smp)).dec.run = .run) :
    d.run = .run :=
  run_of_runSamples_run (smps := [smp]) h

end

/-- With `pwo` low only an open command is flushed (R76). -/
theorem sampleStep_of_pwo_low_eq {cfg : Config} {smp : Nat} (hpwo : (extract smp).pwo = false)
    (w : Work) :
    sampleStep cfg smp w = finishSample cfg (extract smp).p2
      (setInCommand false (if w.dec.inCommand then flush w else w)) := by
  simp only [sampleStep, hpwo]
  rfl

/-- In Idle a sample that accepts no bit only finishes, whatever `pwo` is. -/
theorem sampleStep_of_idle {cfg : Config} {smp : Nat} {w : Work} (hidle : w.dec.inCommand = false)
    (hacc : accepts w.dec smp = false) :
    sampleStep cfg smp w = finishSample cfg (extract smp).p2 w := by
  cases hpwo : (extract smp).pwo
  case true => exact sampleStep_of_pwo_high hpwo hacc
  case false =>
    have hsame : setInCommand false w = w := by simp [setInCommand, ← hidle]
    rw [sampleStep_of_pwo_low_eq hpwo, hidle, if_neg Bool.false_ne_true, hsame]

/-- Accepting a bit stays in `RUN` only with room for it. -/
theorem full_eq_false_of_run {cfg : Config} {p2 b : Bool} {w : Work}
    (h : (acceptBit cfg p2 b w).dec.run = .run) : full cfg w.dec.bits = false := by
  rw [← Bool.not_eq_true]
  intro hfull
  simp [acceptBit_dec_of_full hfull] at h

end Sys2Proof.Machine
end

section
/-! No bit is lost, invented, reordered or given to the other channel (R100, R103): every statement of a
step but the append keeps the bits of the lines emitted followed by the bits held. -/
namespace Sys2Proof.Machine

/-- The bits of the lines emitted so far and then the bits held, each with its channel. -/
def carriedBits (w : Work) : List TaggedBit := w.out.flatMap lineBits ++ heldBits w.dec

@[simp] theorem carriedBits_beginWork (d : Decoder) : carriedBits (beginWork d) = heldBits d := rfl

theorem carriedBits_of_bits_nil {w : Work} (h : w.dec.bits = []) :
    carriedBits w = w.out.flatMap lineBits := by
  simp [carriedBits, heldBits, h]

/-- A flush moves the bits held into a line, under the channel they were held with (R104, R105). -/
@[simp] theorem carriedBits_flush (w : Work) : carriedBits (flush w) = carriedBits w := by
  by_cases hb : w.dec.bits = []
  · rw [flush_of_bits_nil hb]
  · rw [carriedBits_of_bits_nil (flush_bits w), flush_out_of_bits_ne_nil hb]
    simp [carriedBits, lineBits, heldBits]

/-- With no bit held `last_sync` is the channel of none. -/
theorem carriedBits_setLastSync {w : Work} (hb : w.dec.bits = []) (v : Tri) :
    carriedBits (setLastSync v w) = carriedBits w := by
  rw [carriedBits_of_bits_nil hb, carriedBits_of_bits_nil (w := setLastSync v w) hb, setLastSync_out]

theorem carriedBits_ensureCommand {w : Work} (hclosed : w.dec.inCommand = false → w.dec.bits = []) :
    carriedBits (ensureCommand w) = carriedBits w := by
  cases hc : w.dec.inCommand
  · have hb := hclosed hc
    have hstart : ensureCommand w = startCommand w := by simp [ensureCommand, hc]
    rw [hstart, carriedBits_of_bits_nil hb, carriedBits_of_bits_nil (w := startCommand w) hb,
      (startCommand_spec w).2]
    simp [lineBits]
  · simp [ensureCommand, hc]

@[simp] theorem carriedBits_ensureChannel (sync : Bool) (w : Work) :
    carriedBits (ensureChannel sync w) = carriedBits w := by
  unfold ensureChannel
  split
  · exact (carriedBits_setLastSync (flush_bits w) _).trans (carriedBits_flush w)
  · rfl

/-- The letter of a flush names the channel `last_sync` was set from (R105). -/
@[simp] theorem lineChannel_tri_eq_c (sync : Bool) : lineChannel (tri sync) = .c ↔ sync = true := by
  cases sync <;> decide

/-- Accepting a bit adds it at the end, on the channel entered. -/
theorem carriedBits_acceptBit {cfg : Config} {w : Work} {sync : Bool}
    (hsync : w.dec.lastSync = tri sync) (hroom : full cfg w.dec.bits = false) (p2 b : Bool) :
    carriedBits (acceptBit cfg p2 b w) = carriedBits w ++ [(sync, b)] := by
  rw [carriedBits, acceptBit_out, acceptBit_dec_of_room hroom]
  simp [carriedBits, heldBits, hsync]

/-! ### Samples -/

section
variable {cfg : Config} {d : Decoder} {smp : Nat}

/-- In a framed `RUN` state no bit is held outside a command (R93). -/
theorem Framed.bits_eq_nil (hframed : Framed d) (hrun : d.run = .run) (hc : d.inCommand = false) :
    d.bits = [] := by
  simpa [hc] using (hframed hrun).1

/-- In a framed `RUN` state a bit is held inside a command (R93). -/
theorem Framed.bits_ne_nil (hframed : Framed d) (hrun : d.run = .run) (hc : d.inCommand = true) :
    d.bits ≠ [] := (hframed hrun).1.mp hc

/-- A sample that stays in `RUN` keeps the framing, and adds the bit it accepts, if any. -/
theorem sample_carries_acceptedBit (hframed : Framed d)
    (hend : (eventStep cfg d (.sample smp)).dec.run = .run) :
    Framed (eventStep cfg d (.sample smp)).dec ∧
    carriedBits (eventStep cfg d (.sample smp)) = heldBits d ++ acceptedBit d smp := by
  have hrun : d.run = .run := run_of_sample_run hend
  have hclosed : d.inCommand = false → d.bits = [] := hframed.bits_eq_nil hrun
  rw [eventStep_sample hrun] at hend ⊢
  cases hacc : accepts d smp
  case true =>
    rw [sampleStep_of_accepts hacc] at hend ⊢
    have hroom := full_eq_false_of_run hend
    refine ⟨fun _ => by simp [acceptBit_dec_of_room hroom], ?_⟩
    rw [carriedBits_acceptBit (ensureChannel_lastSync _ _) hroom, carriedBits_ensureChannel,
      carriedBits_ensureCommand hclosed, acceptedBit, if_pos hacc]
    rfl
  case false =>
    have hnone : acceptedBit d smp = [] := by simp [acceptedBit, hacc]
    rw [hnone, List.append_nil]
    cases hpwo : (extract smp).pwo
    case true =>
      rw [sampleStep_of_pwo_high hpwo hacc]
      exact ⟨hframed, rfl⟩
    case false =>
      rw [sampleStep_of_pwo_low hpwo hclosed]
      exact ⟨fun _ => by simp, carriedBits_flush _⟩

end

/-- Settles O37, by induction on the samples: what a step carries is the held bits of the next. -/
theorem linesAndHeldBitsAreTheAcceptedBits : Obligations.LinesAndHeldBitsAreTheAcceptedBits := by
  intro cfg d smps hframed
  dsimp only
  intro hend
  induction smps generalizing d with
  | nil => simp [acceptedBits]
  | cons smp smps ih =>
    rw [runSamples_cons_dec] at hend
    obtain ⟨hnext, hstep⟩ := sample_carries_acceptedBit hframed (run_of_runSamples_run hend)
    simp only [runSamples_cons_out, runSamples_cons_dec, List.flatMap_append, List.append_assoc,
      ih _ hnext hend, acceptedBits]
    rw [← List.append_assoc, ← List.append_assoc, ← hstep]
    rfl

end Sys2Proof.Machine
end

section
/-! In Idle `last_sync` cannot be learnt from any later output (R98): the next command start forgets it,
and no earlier event reads it. -/
namespace Sys2Proof.Machine

section
variable {cfg : Config} {d : Decoder}

/-- A sample that starts a command leaves nothing of the old `last_sync`. -/
theorem sampleStep_forgets_lastSync {smp : Nat} (hidle : d.inCommand = false)
    (hacc : accepts d smp = true) (x : Tri) :
    sampleStep cfg smp (beginWork { d with lastSync := x }) = sampleStep cfg smp (beginWork d) := by
  rw [sampleStep_of_start (w := beginWork d) hacc hidle,
    sampleStep_of_start (w := beginWork { d with lastSync := x }) hacc hidle]
  rfl

/-- An event in Idle with no bit held, at two values of `last_sync`: the same lines, and either equal
records, or no command started and records that still differ in it alone, in Idle with no bit held. -/
theorem eventStep_hides_lastSync (hidle : d.inCommand = false) (hbits : d.bits = []) (x : Tri)
    (e : Event) :
    let w := eventStep cfg d e
    let w' := eventStep cfg { d with lastSync := x } e
    w'.out = w.out ∧
    (w'.dec = w.dec ∨
      w'.dec = { w.dec with lastSync := x } ∧ w.dec.inCommand = false ∧ w.dec.bits = [] ∧
        ∀ k, Line.start k ∉ w.out) := by
  by_cases hrun : d.run = .run
  case neg =>
    cases e with
    | reset => exact ⟨rfl, .inl rfl⟩
    | interrupt | sourceEnd | sample =>
      simp only [eventStep, if_neg hrun]
      exact ⟨rfl, .inr ⟨rfl, hidle, hbits, fun _ => List.not_mem_nil⟩⟩
  cases e with
  | reset => exact ⟨rfl, .inl rfl⟩
  | interrupt | sourceEnd =>
    simp only [eventStep, if_pos hrun]
    exact ⟨rfl, .inr ⟨rfl, hidle, rfl, by simp [hostInterrupt, hostSourceEnd, haltDiscarding]⟩⟩
  | sample smp =>
    simp only [eventStep, if_pos hrun]
    cases hacc : accepts (countSample d) smp
    case true =>
      have hforget := sampleStep_forgets_lastSync (cfg := cfg) (d := countSample d) hidle hacc x
      exact ⟨congrArg Work.out hforget, .inl (congrArg Work.dec hforget)⟩
    case false =>
      rw [sampleStep_of_idle (w := beginWork (countSample d)) hidle hacc,
        sampleStep_of_idle (w := beginWork (countSample { d with lastSync := x })) hidle hacc]
      exact ⟨rfl, .inr ⟨rfl, hidle, hbits, fun _ => List.not_mem_nil⟩⟩

end

/-- Settles O41, by induction on the events: once the records are equal the rest is one run. -/
theorem lastSyncIsInvisibleInIdle : Obligations.LastSyncIsInvisibleInIdle := by
  intro cfg d x es hidle hbits
  dsimp only
  induction es generalizing d with
  | nil => exact ⟨rfl, rfl, by simp⟩
  | cons e es ih =>
    obtain ⟨hout, heq | ⟨hdiffer, hidle', hbits', hstart⟩⟩ :=
      eventStep_hides_lastSync (cfg := cfg) hidle hbits x e
    · simp [hout, heq]
    · obtain ⟨ihout, ihdec, ihstart⟩ := ih _ hidle' hbits'
      simp only [runEvents_cons_out, runEvents_cons_dec, hdiffer, List.mem_append]
      exact ⟨by rw [hout, ihout], ihdec,
        fun ⟨k, hk⟩ => ihstart ⟨k, hk.resolve_left (hstart k)⟩⟩

end Sys2Proof.Machine
end

section
/-! `last_p2` and `since_last` (R81, R99): a step that accepts a bit begins the count again, and every
other step counts on, up to `SL_MAX`. -/
namespace Sys2Proof.Machine

/-! ### The saturating count -/

theorem sat_of_unbounded {cfg : Config} (h : cfg.slMax = .inf) (k : Nat) : sat cfg k = k := by
  simp [sat, h]

theorem sat_of_finite {cfg : Config} {m : Nat} (h : cfg.slMax = .finite m) (k : Nat) :
    sat cfg k = min k m := by
  simp [sat, h]

/-- Saturating before counting on changes nothing. -/
theorem sat_sat_succ (cfg : Config) (k : Nat) : sat cfg (sat cfg k + 1) = sat cfg (k + 1) := by
  cases h : cfg.slMax with
  | inf => simp only [sat_of_unbounded h]
  | finite m =>
    simp only [sat_of_finite h]
    omega

/-! ### One sample -/

/-- What a sample step that stays in `RUN` leaves in `last_p2` and `since_last`. -/
theorem sampleStep_timing {cfg : Config} {smp : Nat} {w : Work}
    (hend : (sampleStep cfg smp w).dec.run = .run) :
    (sampleStep cfg smp w).dec.lastP2 = tri (extract smp).p2 ∧
    (sampleStep cfg smp w).dec.sinceLast =
      sat cfg (if accepts w.dec smp then 1 else w.dec.sinceLast + 1) := by
  cases hacc : accepts w.dec smp
  case true =>
    rw [sampleStep_of_accepts hacc] at hend ⊢
    rw [acceptBit_dec_of_room (full_eq_false_of_run hend)]
    exact ⟨rfl, rfl⟩
  case false =>
    cases hpwo : (extract smp).pwo
    case true =>
      rw [sampleStep_of_pwo_high hpwo hacc]
      exact ⟨rfl, rfl⟩
    case false =>
      rw [sampleStep_of_pwo_low_eq hpwo]
      cases w.dec.inCommand <;> simp

/-- The same of a sample as an event; one that ends in `RUN` began in it. -/
theorem eventStep_sample_timing {cfg : Config} {d : Decoder} {smp : Nat}
    (hend : (eventStep cfg d (.sample smp)).dec.run = .run) :
    (eventStep cfg d (.sample smp)).dec.lastP2 = tri (extract smp).p2 ∧
    (eventStep cfg d (.sample smp)).dec.sinceLast =
      sat cfg (if accepts d smp then 1 else d.sinceLast + 1) := by
  have hrun : d.run = .run := run_of_sample_run hend
  rw [eventStep_sample hrun] at hend ⊢
  exact sampleStep_timing hend

/-- Settles O16: with `SL_MAX` at least 1 the count after an accepted bit is 1. -/
theorem timingAfterEverySample : Obligations.TimingAfterEverySample := by
  intro cfg d smp hwf _
  dsimp only
  intro hend
  obtain ⟨hp2, hcount⟩ := eventStep_sample_timing hend
  refine ⟨hp2, fun hacc => ?_, fun hacc => ⟨fun hinf => ?_, fun m hfin => ?_⟩⟩
  · rw [hcount, if_pos hacc, sat_one cfg (slMax_positive hwf)]
  · simp [hcount, hacc, sat_of_unbounded hinf]
  · simp [hcount, hacc, sat_of_finite hfin]

/-! ### Runs of samples -/

/-- The count, before saturation, after samples of which the given ones were accepted. -/
def countAfter : Nat → List Bool → Nat
  | c, [] => c
  | c, a :: as => countAfter (if a then 1 else c + 1) as

/-- `since_last` is that count, up to `SL_MAX`, as long as the run stays in `RUN`. -/
theorem runSamples_sinceLast {cfg : Config} {d : Decoder} {c : Nat} {smps : List Nat}
    (hbegin : d.sinceLast = sat cfg c) (hend : (runSamples cfg d smps).dec.run = .run) :
    (runSamples cfg d smps).dec.sinceLast = sat cfg (countAfter c (acceptances cfg d smps)) := by
  induction smps generalizing d c with
  | nil => exact hbegin
  | cons smp smps ih =>
    rw [runSamples_cons_dec] at hend ⊢
    refine ih ?_ hend
    rw [(eventStep_sample_timing (run_of_runSamples_run hend)).2, hbegin]
    cases accepts d smp
    · exact sat_sat_succ cfg c
    · rfl

theorem length_acceptances (cfg : Config) (d : Decoder) (smps : List Nat) :
    (acceptances cfg d smps).length = smps.length := by
  induction smps generalizing d with
  | nil => rfl
  | cons smp smps ih => simp [acceptances, ih]

/-- With no bit accepted the count goes on. -/
theorem countAfter_of_none {as : List Bool} (h : ∀ i : Nat, as[i]? ≠ some true) (c : Nat) :
    countAfter c as = c + as.length := by
  induction as generalizing c with
  | nil => rfl
  | cons a as ih =>
    have ha : a = false := by simpa using h 0
    rw [countAfter, ih (fun i => h (i + 1)), ha, List.length_cons]
    simp only [Bool.false_eq_true, if_false]
    omega

/-- The count is that since the last accepted bit. -/
theorem countAfter_of_last {as : List Bool} {k : Nat} (hk : as[k]? = some true)
    (hlast : ∀ i : Nat, k < i → as[i]? ≠ some true) (c : Nat) :
    countAfter c as = as.length - k := by
  induction as generalizing c k with
  | nil => simp at hk
  | cons a as ih =>
    cases k with
    | zero =>
      have ha : a = true := by simpa using hk
      have hrest : ∀ i : Nat, as[i]? ≠ some true := fun i => hlast (i + 1) i.succ_pos
      rw [countAfter, countAfter_of_none hrest, ha, if_pos rfl, List.length_cons]
      omega
    | succ k =>
      rw [countAfter, ih hk (fun i hi => hlast (i + 1) (Nat.succ_lt_succ hi)), List.length_cons]
      omega

/-- Settles O36: the count is 0 at RESET, so it is that of `countAfter`, which the acceptances fix. -/
theorem countIsSamplesSinceTheLastAcceptedBit :
    Obligations.CountIsSamplesSinceTheLastAcceptedBit := by
  intro cfg smps
  dsimp only
  intro hend
  have hlen := length_acceptances cfg Decoder.initial smps
  have hreset : Decoder.initial.sinceLast = sat cfg 0 := by
    cases h : cfg.slMax <;> simp [sat, h, Decoder.initial]
  have hcount := runSamples_sinceLast hreset hend
  refine ⟨hlen, fun k hk hlast => ?_, fun hnone => ?_⟩
  · rw [hcount, countAfter_of_last hk hlast, hlen]
    exact ⟨fun h => sat_of_unbounded h _, fun m h => (sat_of_finite h _).trans (min_comm _ _)⟩
  · rw [hcount, countAfter_of_none hnone, hlen, Nat.zero_add]
    exact ⟨fun h => sat_of_unbounded h _, fun m h => (sat_of_finite h _).trans (min_comm _ _)⟩

end Sys2Proof.Machine
end

section
/-! What a SAMPLE step emits (R92), and that a command begins only at an accepted bit and ends with one
flush (R101, R102). -/
namespace Sys2Proof.Machine

/-! ### The lines of an operation -/

/-- The lines each operation emits from a framed `RUN` state (R92). -/
def operationLines (d : Decoder) : Instr → List Line
  | .startC _ | .startD _ => [.blank, .start d.sinceLast]
  | .pwoLowEnd _ | .switchC _ | .switchD _ => [.data (lineChannel d.lastSync) (group d.bits)]
  | _ => []

section
variable {cfg : Config} {d : Decoder} {smp : Nat}

/-- A SAMPLE step emits the lines of the operation it selects. -/
theorem eventStep_sample_out (hrun : d.run = .run) (hframed : Framed d) :
    (eventStep cfg d (.sample smp)).out = operationLines d (decodeOp d.view smp) := by
  have hclosed : d.inCommand = false → d.bits = [] := hframed.bits_eq_nil hrun
  have hopen : d.inCommand = true → d.bits ≠ [] := hframed.bits_ne_nil hrun
  rw [eventStep_sample hrun]
  cases hpwo : (extract smp).pwo
  case false =>
    rw [decodeOp_of_pwo_low hpwo, sampleStep_of_pwo_low_eq hpwo]
    cases hcmd : d.inCommand
    case false => simp [operationLines, hcmd]
    case true => simp [operationLines, hcmd, (flush_spec _).2, hopen hcmd]
  cases hacc : accepts d smp
  case false =>
    rw [decodeOp_of_pwo_high hpwo hacc, sampleStep_of_pwo_high hpwo hacc]
    cases (extract smp).p2 <;> rfl
  cases hcmd : d.inCommand
  case false =>
    rw [decodeOp_of_start hacc hcmd, sampleStep_of_start hacc hcmd, acceptBit_out,
      (enterChannel_spec _ _).2, (startCommand_spec _).2]
    cases (extract smp).sync <;> simp [operationLines, hclosed hcmd]
  by_cases hsame : d.lastSync = tri (extract smp).sync
  · rw [decodeOp_of_same_channel hacc hcmd hsame, sampleStep_of_same_channel hacc hcmd hsame]
    cases (extract smp).sync <;> simp [operationLines]
  · rw [decodeOp_of_switch hacc hcmd hsame, sampleStep_of_switch hacc hcmd hsame, acceptBit_out,
      (enterChannel_spec _ _).2]
    cases (extract smp).sync <;> simp [operationLines, hopen hcmd]

end

theorem length_operationLines_le (d : Decoder) (i : Instr) : (operationLines d i).length ≤ 2 := by
  cases i <;> simp [operationLines]

/-- Settles O18: a SAMPLE step emits the lines of its operation, at most two. -/
theorem sampleStepEmitsOneOfThreeOutputs : Obligations.SampleStepEmitsOneOfThreeOutputs := by
  intro cfg d smp hrun hframed
  have hinterrupt : (eventStep cfg d .interrupt).out = [.final] := by
    rw [eventStep, if_pos hrun]
    rfl
  refine ⟨?_, rfl, hinterrupt, fun e => ?_⟩
  · rw [eventStep_sample_out hrun hframed]
    cases decodeOp d.view smp <;> rfl
  · cases e with
    | reset => simp [eventStep, hostReset]
    | interrupt => simp [hinterrupt]
    | sourceEnd => simp [eventStep, hrun, hostSourceEnd, haltDiscarding]
    | sample smp =>
      rw [eventStep_sample_out hrun hframed]
      exact length_operationLines_le d _

/-! ### Samples without an accepted bit -/

/-- In Idle a sample that accepts no bit emits nothing and stays in Idle. -/
theorem eventStep_sample_of_idle {cfg : Config} {d : Decoder} {smp : Nat}
    (hidle : d.inCommand = false) (hacc : accepts d smp = false) :
    (eventStep cfg d (.sample smp)).out = [] ∧
    (eventStep cfg d (.sample smp)).dec.inCommand = false := by
  by_cases hrun : d.run = .run
  · rw [eventStep_sample hrun, sampleStep_of_idle hidle hacc]
    exact ⟨rfl, hidle⟩
  · rw [eventStep_sample_of_halted hrun]
    exact ⟨rfl, hidle⟩

/-- Settles O39, by induction on the samples. -/
theorem noEdgeMeansNoCommand : Obligations.NoEdgeMeansNoCommand := by
  intro cfg d smps hidle hnone
  induction smps generalizing d with
  | nil => exact ⟨rfl, hidle⟩
  | cons smp smps ih =>
    obtain ⟨hacc, hrest⟩ := List.forall_mem_cons.mp hnone
    obtain ⟨hout, hidle'⟩ := eventStep_sample_of_idle (cfg := cfg) hidle hacc
    obtain ⟨ihout, ihidle⟩ := ih _ hidle' hrest
    exact ⟨by rw [runSamples_cons_out, hout, ihout, List.append_nil], ihidle⟩

/-- Settles O38: the first sample is PWO_LOW_END, and it leaves the block in Idle. -/
theorem commandEndFlushesExactlyOnce : Obligations.CommandEndFlushesExactlyOnce := by
  intro cfg d smp smps hrun hframed hcmd hpwo
  dsimp only
  intro hnone
  have hidle : (eventStep cfg d (.sample smp)).dec.inCommand = false := by
    rw [eventStep_sample hrun, sampleStep_of_pwo_low_eq hpwo, finishSample_inCommand,
      setInCommand_inCommand]
  have hend : decodeOp d.view smp = .pwoLowEnd (extract smp).p2 :=
    (decodeOp_of_pwo_low hpwo).trans (if_pos hcmd)
  have hout := eventStep_sample_out (cfg := cfg) (smp := smp) hrun hframed
  rw [hend] at hout
  exact ⟨hidle, hout, noEdgeMeansNoCommand cfg _ smps hidle hnone⟩

end Sys2Proof.Machine
end

section
/-! The whole next state of each of the ten operations, in the states its row of R67 applies to (R82 to
R91), and the state after RESET. -/
namespace Sys2Proof.Machine

/-- Settles O2: any state with this configuration and feed is led there by RESET. -/
theorem invariantHoldsAfterReset : Obligations.InvariantHoldsAfterReset := fun cfg feed =>
  inv_takeEvent_reset { State.reset with cfg := cfg, feed := feed }

/-! ### The next state in `RUN` -/

section
variable {s t : State} {smp : Nat}

/-- A sample has the effect of the operation it selects. -/
theorem exec_of_decodeOp_eq {i : Instr} (hop : decodeOp s.dec.view smp = i)
    (h : exec i s = .next t) :
    decodeOp s.dec.view smp = i ∧ exec i s = .next t ∧ exec (.sample smp) s = .next t :=
  ⟨hop, h, by rw [sampleStepIsTheSelectedOperation, hop, h]⟩

/-- In `RUN` the next state has the record and, behind the queue, the lines of the step. -/
theorem onSample_of_run (hrun : s.dec.run = .run) {f : Work → Work} {d : Decoder} {ls : List Line}
    (hdec : (f (beginWork (countSample s.dec))).dec = d)
    (hout : (f (beginWork (countSample s.dec))).out = ls) :
    onSample s f = .next { s with dec := d, outq := s.outq ++ ls } := by
  rw [onSample_spec, if_pos hrun, absorb, hdec, hout]

/-- A step that emits nothing leaves the queue. -/
theorem onSample_of_run_silent (hrun : s.dec.run = .run) {f : Work → Work} {d : Decoder}
    (hdec : (f (beginWork (countSample s.dec))).dec = d)
    (hout : (f (beginWork (countSample s.dec))).out = []) :
    onSample s f = .next { s with dec := d } := by
  rw [onSample_of_run hrun hdec hout, List.append_nil]

end

/-! ### Operations without a bit -/

/-- Settles O5: the row applies outside a command, where `in_command` is rewritten as it is. -/
theorem pwoLowIdleResult : Obligations.PwoLowIdleResult := by
  intro s smp hrun hidle hpwo
  refine exec_of_decodeOp_eq ((decodeOp_of_pwo_low hpwo).trans (if_neg (ne_true_of_eq_false hidle)))
    ((exec_pwoLowIdle _ s).trans (onSample_of_run_silent hrun ?_ rfl))
  rw [(finishSample_spec _ _ _).1, ← hidle]
  rfl

/-- Settles O6. -/
theorem pwoLowEndResult : Obligations.PwoLowEndResult := by
  intro s smp hrun hcmd hpwo
  refine exec_of_decodeOp_eq ((decodeOp_of_pwo_low hpwo).trans (if_pos hcmd))
    ((exec_pwoLowEnd _ s).trans (onSample_of_run hrun ?_ ?_))
  · rw [(finishSample_spec _ _ _).1, setInCommand, (flush_spec _).1]
    rfl
  · rw [finishSample_out, setInCommand_out, (flush_spec _).2]
    rfl

/-- Settles O7. -/
theorem strobeLowResult : Obligations.StrobeLowResult := by
  intro s smp hrun hpwo hp2
  have hacc : accepts s.dec smp = false := by
    rw [← Bool.not_eq_true, accepts_iff]
    exact fun ⟨_, hedge, _⟩ => ne_true_of_eq_false hp2 hedge
  exact exec_of_decodeOp_eq
    ((decodeOp_of_pwo_high hpwo hacc).trans (if_neg (ne_true_of_eq_false hp2)))
    ((exec_strobeLow s).trans (onSample_of_run_silent hrun rfl rfl))

/-- Settles O8: `last_p2` is rewritten as it is. -/
theorem strobeHeldResult : Obligations.StrobeHeldResult := by
  intro s smp hrun hpwo hp2 hheld
  have hacc : accepts s.dec smp = false := by
    rw [← Bool.not_eq_true, accepts_iff]
    exact fun ⟨_, _, hnew⟩ => hnew hheld
  refine exec_of_decodeOp_eq ((decodeOp_of_pwo_high hpwo hacc).trans (if_pos hp2))
    ((exec_strobeHeld s).trans (onSample_of_run_silent hrun ?_ rfl))
  rw [(finishSample_spec _ _ _).1, (tri_eq_t true).mpr rfl, ← hheld]
  rfl

/-! ### Operations that accept a bit -/

/-- The first bit of a channel, taken from any `Work`: the bits held before leave as one line, and the
accumulator holds the new bit alone (R86, R87, R90, R91). -/
theorem acceptBit_enterChannel {cfg : Config} (hwf : cfg.wf = true) (sync b : Bool) (w : Work) :
    (acceptBit cfg true b (enterChannel sync w)).dec =
      { w.dec with lastSync := tri sync, bits := [b], lastP2 := .t, sinceLast := 1 } ∧
    (acceptBit cfg true b (enterChannel sync w)).out = w.out ++
      (if w.dec.bits = [] then [] else [.data (lineChannel w.dec.lastSync) (group w.dec.bits)]) := by
  have hroom : full cfg (enterChannel sync w).dec.bits = false := by
    rw [enterChannel_bits, full_nil (bitsCap_positive hwf)]
  rw [acceptBit_dec_of_room hroom, acceptBit_out, (enterChannel_spec _ _).1,
    (enterChannel_spec _ _).2, sat_one cfg (slMax_positive hwf)]
  exact ⟨rfl, rfl⟩

section
variable {s : State} (hwf : s.cfg.wf = true) (hrun : s.dec.run = .run) (sync b : Bool)
include hwf hrun

/-- The next state of a command start; `last_sync` is unknown at its flush, so bits held in Idle leave
with the letter `D` (R86, R87, R105). -/
theorem onSample_start :
    (onSample s fun w => acceptBit s.cfg true b (enterChannel sync (startCommand w))) = .next
      { s with
        dec := { s.dec with
          inCommand := true, lastSync := tri sync, bits := [b], lastP2 := .t, sinceLast := 1,
          n := s.dec.n + 1 }
        outq := s.outq ++ [.blank, .start s.dec.sinceLast] ++
          (if s.dec.bits = [] then [] else [.data .d (group s.dec.bits)]) } := by
  obtain ⟨hdec, hout⟩ :=
    acceptBit_enterChannel hwf sync b (startCommand (beginWork (countSample s.dec)))
  rw [onSample_of_run hrun hdec hout, List.append_assoc]
  rfl

/-- The next state of a channel switch (R90, R91). -/
theorem onSample_switch :
    (onSample s fun w => acceptBit s.cfg true b (enterChannel sync w)) = .next
      { s with
        dec := { s.dec with
          lastSync := tri sync, bits := [b], lastP2 := .t, sinceLast := 1, n := s.dec.n + 1 }
        outq := s.outq ++ (if s.dec.bits = [] then [] else
          [.data (lineChannel s.dec.lastSync) (group s.dec.bits)]) } := by
  obtain ⟨hdec, hout⟩ := acceptBit_enterChannel hwf sync b (beginWork (countSample s.dec))
  exact onSample_of_run hrun hdec hout

/-- The next state of a bit of the command's own channel, with room for it (R88, R89). -/
theorem onSample_bit_of_room (hroom : s.cfg.bitsCap ≠ .finite s.dec.bits.length) :
    onSample s (acceptBit s.cfg true b) = .next
      { s with
        dec := { s.dec with
          bits := s.dec.bits ++ [b], lastP2 := .t, sinceLast := 1, n := s.dec.n + 1 } } := by
  rw [Ne, ← full_eq_true, Bool.not_eq_true] at hroom
  refine onSample_of_run_silent hrun ?_ (acceptBit_out _ _ _ _)
  rw [acceptBit_dec_of_room hroom, sat_one s.cfg (slMax_positive hwf)]
  rfl

omit hwf in
/-- The next state of a bit of the command's own channel on a full accumulator (R88, R89, R134). -/
theorem onSample_bit_of_full (hfull : s.cfg.bitsCap = .finite s.dec.bits.length) :
    onSample s (acceptBit s.cfg true b) = .next
      { s with
        dec := { s.dec with
          run := .haltFault, faultCause := .accOverflow, n := s.dec.n + 1 } } := by
  rw [← full_eq_true] at hfull
  refine onSample_of_run_silent hrun ?_ (acceptBit_out _ _ _ _)
  rw [acceptBit_dec_of_full hfull]
  rfl

end

/-- Settles O9. -/
theorem startCResult : Obligations.StartCResult := by
  intro s smp hwf hrun hpwo hp2 hsync hnew hidle
  have hacc : accepts s.dec smp = true := accepts_iff.mpr ⟨hpwo, hp2, hnew⟩
  exact exec_of_decodeOp_eq ((decodeOp_of_start hacc hidle).trans (if_pos hsync))
    ((exec_startC _ s).trans (onSample_start hwf hrun true _))

/-- Settles O10. -/
theorem startDResult : Obligations.StartDResult := by
  intro s smp hwf hrun hpwo hp2 hsync hnew hidle
  have hacc : accepts s.dec smp = true := accepts_iff.mpr ⟨hpwo, hp2, hnew⟩
  exact exec_of_decodeOp_eq
    ((decodeOp_of_start hacc hidle).trans (if_neg (ne_true_of_eq_false hsync)))
    ((exec_startD _ s).trans (onSample_start hwf hrun false _))

/-- Settles O11: the ghost count of the faulting sample is taken (log entry 11). -/
theorem bitCResult : Obligations.BitCResult := by
  intro s smp hwf hrun hpwo hp2 hsync hnew hcmd hchan
  have hacc : accepts s.dec smp = true := accepts_iff.mpr ⟨hpwo, hp2, hnew⟩
  have hsame : s.dec.lastSync = tri (extract smp).sync := hchan.trans ((tri_eq_t _).mpr hsync).symm
  have hop := (decodeOp_of_same_channel hacc hcmd hsame).trans (if_pos hsync)
  exact ⟨hop,
    fun hroom => (exec_of_decodeOp_eq hop (onSample_bit_of_room hwf hrun _ hroom)).2,
    fun hfull => ⟨_, (exec_of_decodeOp_eq hop (onSample_bit_of_full hrun _ hfull)).2⟩⟩

/-- Settles O12: the ghost count of the faulting sample is taken (log entry 11). -/
theorem bitDResult : Obligations.BitDResult := by
  intro s smp hwf hrun hpwo hp2 hsync hnew hcmd hchan
  have hacc : accepts s.dec smp = true := accepts_iff.mpr ⟨hpwo, hp2, hnew⟩
  have hsame : s.dec.lastSync = tri (extract smp).sync := hchan.trans ((tri_eq_f _).mpr hsync).symm
  have hop := (decodeOp_of_same_channel hacc hcmd hsame).trans
    (if_neg (ne_true_of_eq_false hsync))
  exact ⟨hop,
    fun hroom => (exec_of_decodeOp_eq hop (onSample_bit_of_room hwf hrun _ hroom)).2,
    fun hfull => ⟨_, (exec_of_decodeOp_eq hop (onSample_bit_of_full hrun _ hfull)).2⟩⟩

/-- Settles O13: the row excludes channel `C`, so the bits held leave with the letter `D`. -/
theorem switchCResult : Obligations.SwitchCResult := by
  intro s smp hwf hrun hpwo hp2 hsync hnew hcmd hchan
  have hacc : accepts s.dec smp = true := accepts_iff.mpr ⟨hpwo, hp2, hnew⟩
  have hother : s.dec.lastSync ≠ tri (extract smp).sync := (tri_eq_t _).mpr hsync ▸ hchan
  have hletter : lineChannel s.dec.lastSync = .d := if_neg hchan
  exact exec_of_decodeOp_eq ((decodeOp_of_switch hacc hcmd hother).trans (if_pos hsync))
    (hletter ▸ (exec_switchC _ s).trans (onSample_switch hwf hrun true _))

/-- Settles O14. -/
theorem switchDResult : Obligations.SwitchDResult := by
  intro s smp hwf hrun hpwo hp2 hsync hnew hcmd hchan
  have hacc : accepts s.dec smp = true := accepts_iff.mpr ⟨hpwo, hp2, hnew⟩
  have hother : s.dec.lastSync ≠ tri (extract smp).sync := (tri_eq_f _).mpr hsync ▸ hchan
  exact exec_of_decodeOp_eq
    ((decodeOp_of_switch hacc hcmd hother).trans (if_neg (ne_true_of_eq_false hsync)))
    ((exec_switchD _ s).trans (onSample_switch hwf hrun false _))

end Sys2Proof.Machine
end

section
/-! The groups of a bit list as fields of the hardware accumulator (R107 to R111, R115). Every bit list is
the field `acc[len-1 : 0]` of an accumulator that holds it, so what cutting a field gives also fixes the
lengths of the groups. -/
namespace Sys2Proof.Machine

/-! ### Fields of `acc` -/

@[simp] theorem length_accField (acc : Nat → Bool) (lo len : Nat) :
    (accField acc lo len).length = len := by
  simp [accField]

@[simp] theorem accField_eq_nil_iff {acc : Nat → Bool} {lo len : Nat} :
    accField acc lo len = [] ↔ len = 0 := by
  rw [← List.length_eq_zero_iff, length_accField]

/-- Adjacent fields join. -/
theorem accField_add (acc : Nat → Bool) (lo m n : Nat) :
    accField acc lo (m + n) = accField acc lo m ++ accField acc (lo + m) n := by
  simp [accField, List.range_add, Nat.add_assoc]

/-- The field below `acc_len` is the bits held, whatever stands above it (R35). -/
theorem AccHolds.accField_eq_bits {acc : Nat → Bool} {d : Decoder} (h : AccHolds acc d) :
    accField acc 0 (accLen d) = d.bits := by
  refine List.ext_getElem (length_accField ..) fun i hi hi' => ?_
  simpa [accField] using h i hi'

/-- The accumulator that holds `bs`, with zeros above. -/
theorem accField_getD (bs : List Bool) : accField (bs.getD · false) 0 bs.length = bs := by
  refine List.ext_getElem (length_accField ..) fun i hi hi' => ?_
  simp [accField, hi']

/-! ### Peeling a field -/

/-- Fewer than 8 bits are at most one ragged group (R110). -/
theorem peelGroups_of_length_lt {bs : List Bool} (h : bs.length < 8) (k : Nat) :
    peelGroups k bs = if bs = [] then [] else [bs] := by
  cases k with
  | zero => rfl
  | succ k => exact if_neg (Nat.not_le.mpr h)

/-- Eight bits in front are the first group (R109). -/
theorem peelGroups_succ_append {front : List Bool} (h : front.length = 8) (k : Nat) (rest : List Bool) :
    peelGroups (k + 1) (front ++ rest) = front :: peelGroups k rest := by
  simp [peelGroups, ← h]

/-- Peeling a field of `8 q + r` bits gives its `q` bytes, then the `r` bits above them, if any. -/
theorem peelGroups_accField (acc : Nat → Bool) (lo : Nat) {q k r : Nat} (hk : q ≤ k) (hr : r < 8) :
    peelGroups k (accField acc lo (8 * q + r)) =
      (List.range q).map (fun j => accField acc (lo + 8 * j) 8) ++
        if r = 0 then [] else [accField acc (lo + 8 * q) r] := by
  induction q generalizing k lo with
  | zero =>
    rw [peelGroups_of_length_lt (by simpa using hr)]
    simp
  | succ q ih =>
    obtain ⟨k, rfl⟩ := Nat.exists_eq_add_of_le' hk
    have hlen : 8 * (q + 1) + r = 8 + (8 * q + r) := by omega
    have hshift (j : Nat) : lo + 8 + 8 * j = lo + 8 * (j + 1) := by omega
    rw [hlen, accField_add, ← Nat.add_assoc, peelGroups_succ_append (length_accField ..),
      ih (lo + 8) (by omega)]
    simp [List.range_succ_eq_map, hshift, Function.comp_def]

/-! ### The two ways to group -/

/-- The hardware groups of `8 q + 2` bits: the header, then `q` bytes. -/
theorem hwGroups_of_header (acc : Nat → Bool) (q : Nat) :
    hwGroups acc (8 * q + 2) =
      accField acc 0 2 :: (List.range q).map fun j => accField acc (2 + 8 * j) 8 := by
  have hh : hwHeader (8 * q + 2) = 2 := if_pos (by omega)
  simp [hwGroups, hh, Nat.add_comm 2 (8 * q)]

/-- The hardware groups of any other number of bits: no header, `q` bytes, then what remains. -/
theorem hwGroups_of_no_header (acc : Nat → Bool) (q : Nat) {r : Nat} (hr : r < 8) (h2 : r ≠ 2) :
    hwGroups acc (8 * q + r) =
      (List.range q).map (fun j => accField acc (8 * j) 8) ++
        if r = 0 then [] else [accField acc (8 * q) r] := by
  have hh : hwHeader (8 * q + r) = 0 := if_neg (by omega)
  have hq : (8 * q + r) / 8 = q := by omega
  simp [hwGroups, hh, hq]

/-- Grouping the bits of a field and cutting the field agree (R115). -/
theorem group_accField (acc : Nat → Bool) (len : Nat) :
    group (accField acc 0 len) = hwGroups acc len := by
  obtain ⟨q, r, hr, rfl⟩ : ∃ q r, r < 8 ∧ len = 8 * q + r :=
    ⟨len / 8, len % 8, Nat.mod_lt _ (by decide), (Nat.div_add_mod len 8).symm⟩
  by_cases h2 : r = 2
  · subst h2
    have hsplit : accField acc 0 (8 * q + 2) = accField acc 0 2 ++ accField acc 2 (8 * q + 0) := by
      rw [Nat.add_comm, accField_add, Nat.zero_add, Nat.add_zero]
    rw [hwGroups_of_header, group, if_pos (by simp), hsplit, List.take_left' (length_accField ..),
      List.drop_left' (length_accField ..), peelGroups_accField _ _ (by simp; omega) (by decide)]
    simp
  · rw [hwGroups_of_no_header acc q hr h2, group, if_neg (by simp; omega),
      peelGroups_accField _ _ (by simp; omega) hr]
    simp

/-- Settles O43: `group` sees only the field below `acc_len`. -/
theorem hardwareGroupingAgrees : Obligations.HardwareGroupingAgrees := by
  intro acc d _ hacc
  rw [← group_accField, hacc.accField_eq_bits]

/-! ### The lengths of the groups -/

/-- `q` bytes of `acc` are `q` groups of 8 bits. -/
theorem map_length_accField_bytes (acc : Nat → Bool) (f : Nat → Nat) (q : Nat) :
    ((List.range q).map fun j => accField acc (f j) 8).map List.length = List.replicate q 8 := by
  simp [Function.comp_def]

theorem map_length_hwGroups_of_header (acc : Nat → Bool) (q : Nat) :
    (hwGroups acc (8 * q + 2)).map List.length = 2 :: List.replicate q 8 := by
  rw [hwGroups_of_header, List.map_cons, map_length_accField_bytes, length_accField]

theorem map_length_hwGroups_of_no_header (acc : Nat → Bool) (q : Nat) {r : Nat} (hr : r < 8)
    (h2 : r ≠ 2) :
    (hwGroups acc (8 * q + r)).map List.length =
      List.replicate q 8 ++ if r = 0 then [] else [r] := by
  rw [hwGroups_of_no_header acc q hr h2, List.map_append, map_length_accField_bytes]
  split <;> simp

/-- Settles O42: the lengths are read off the hardware groups of an accumulator that holds the bits. -/
theorem groupingLaw : Obligations.GroupingLaw := by
  intro bs _
  have hgroup : group bs = hwGroups (bs.getD · false) (8 * (bs.length / 8) + bs.length % 8) := by
    rw [Nat.div_add_mod, ← group_accField, accField_getD]
  have hr : bs.length % 8 < 8 := Nat.mod_lt _ (by decide)
  refine ⟨group_flatten bs, fun h2 => ?_, fun h0 => ?_, fun h2 h0 => ?_⟩
  · rw [hgroup, h2, map_length_hwGroups_of_header]
  · rw [hgroup, map_length_hwGroups_of_no_header _ _ hr (by omega), if_pos h0, List.append_nil]
  · rw [hgroup, map_length_hwGroups_of_no_header _ _ hr h2, if_neg h0]

end Sys2Proof.Machine
end

section
/-! The host events and the cycles without one (R126 to R130): the next state of RESET, INTERRUPT and
SOURCE_END, that a halt ignores all but RESET, and that an idle or stalled cycle moves at most a line. -/
namespace Sys2Proof.Machine

/-! ### The event the pins select -/

section
variable {p : Pins}

theorem decodeCtl_of_rst (hrst : p.rst = true) : decodeCtl p = .reset := by
  simp [decodeCtl, hrst]

theorem decodeCtl_of_intr (hrst : p.rst = false) (hintr : p.intr = true) :
    decodeCtl p = .interrupt := by
  simp [decodeCtl, hrst, hintr]

theorem decodeCtl_of_sEnd (hrst : p.rst = false) (hintr : p.intr = false) (hend : p.sEnd = true) :
    decodeCtl p = .sourceEnd := by
  simp [decodeCtl, hrst, hintr, hend]

end

/-! ### RESET -/

/-- Settles O1: `host_reset` is the initial record and the Banner alone. -/
theorem resetReinitialisesEveryField : Obligations.ResetReinitialisesEveryField := by
  intro s
  refine ⟨exec_reset s, fun p rest hfeed hrst => ?_,
    rfl, rfl, rfl, rfl, rfl, rfl, rfl, rfl, rfl, rfl⟩
  rw [(stepRunsTheDecodedInstruction s p rest hfeed (.inl hrst)).1, decodeCtl_of_rst hrst, exec_reset]
  rfl

/-! ### INTERRUPT and SOURCE_END -/

section
variable {s : State}

theorem exec_interrupt_of_run (hrun : s.dec.run = .run) :
    exec .interrupt s =
      .next { s with dec := { s.dec with bits := [], run := .haltOk }, outq := s.outq ++ [.final] } := by
  simp only [exec, execInterrupt, eventStep, if_pos hrun]
  rfl

theorem exec_sourceEnd_of_run (hrun : s.dec.run = .run) :
    exec .sourceEnd s = .next { s with dec := { s.dec with bits := [], run := .haltErr } } := by
  simp only [exec, execSourceEnd, eventStep, if_pos hrun, absorb, hostSourceEnd, haltDiscarding,
    setBits_out, beginWork_out, List.append_nil]
  rfl

/-- In `RUN` with nothing queued and no `rst`, the coming cycle runs the instruction the pins select. -/
theorem step_of_run {p : Pins} {rest : List Pins} (hfeed : s.feed = p :: rest)
    (hrun : s.dec.run = .run) (hq : s.outq = []) (hrst : p.rst = false) :
    step s = exec (decodeCtl p) { s with feed := rest } :=
  (stepRunsTheDecodedInstruction s p rest hfeed (.inr (sReady_eq_true_iff.mpr ⟨hrst, hrun, hq⟩))).1

/-- A halted block ignores every event but RESET (R129). -/
theorem eventStep_of_halted {cfg : Config} {d : Decoder} (hhalt : d.run ≠ .run) {e : Event}
    (he : e ≠ .reset) : eventStep cfg d e = beginWork d := by
  cases e with
  | reset => exact absurd rfl he
  | interrupt | sourceEnd | sample => exact if_neg hhalt

/-- An instruction that stands for such an event leaves a halted state as it is. -/
theorem exec_of_halted (hhalt : s.dec.run ≠ .run) {i : Instr} {e : Event} (hi : eventOf i = some e)
    (he : e ≠ .reset) : exec i s = .next s := by
  rw [exec_of_eventOf hi, takeEvent, eventStep_of_halted hhalt he, if_neg he]
  simp

end

/-- Settles O19: the cycle is the instruction on the state with an empty queue. -/
theorem interruptHaltsWithFinal : Obligations.InterruptHaltsWithFinal := by
  intro s hrun
  refine ⟨exec_interrupt_of_run hrun, rfl, rfl, fun p rest hfeed hq hrst hintr => ?_⟩
  rw [step_of_run hfeed hrun hq hrst, decodeCtl_of_intr hrst hintr,
    exec_interrupt_of_run (s := { s with feed := rest }) hrun, hq, List.nil_append]

/-- Settles O20: the cycle is the instruction, which leaves the queue. -/
theorem sourceEndHaltsWithError : Obligations.SourceEndHaltsWithError := by
  intro s hrun
  refine ⟨exec_sourceEnd_of_run hrun, rfl, rfl, fun p rest hfeed hq hrst hintr hend => ?_⟩
  rw [step_of_run hfeed hrun hq hrst, decodeCtl_of_sEnd hrst hintr hend,
    exec_sourceEnd_of_run (s := { s with feed := rest }) hrun]

/-- Settles O21: all three events are ignored in a halt, and RESET writes `run`. -/
theorem haltedBlockIgnoresEvents : Obligations.HaltedBlockIgnoresEvents := by
  intro s hhalt
  refine ⟨exec_of_halted hhalt rfl nofun, exec_of_halted hhalt rfl nofun,
    fun _ => exec_of_halted hhalt rfl nofun, fun rst => ?_, _, exec_reset s, rfl⟩
  rw [← Bool.not_eq_true, sReady_eq_true_iff]
  exact fun ⟨_, hrun, _⟩ => hhalt hrun

/-- Settles O55: in `RUN` the next state is the one of R127 or R128, and in a halt nothing changes. -/
theorem frameOfHaltingEvents : Obligations.FrameOfHaltingEvents := by
  intro i s t hi h
  by_cases hrun : s.dec.run = .run
  · obtain rfl | rfl := hi
    · rw [exec_interrupt_of_run hrun] at h
      cases h
      exact ⟨rfl, rfl, rfl, rfl, rfl, rfl, nofun⟩
    · rw [exec_sourceEnd_of_run hrun] at h
      cases h
      exact ⟨rfl, rfl, rfl, rfl, rfl, rfl, fun _ => rfl⟩
  · have hkeep : exec i s = .next s := by
      obtain rfl | rfl := hi <;> exact exec_of_halted hrun rfl nofun
    cases hkeep.symm.trans h
    exact ⟨rfl, rfl, rfl, rfl, rfl, rfl, fun _ => rfl⟩

/-! ### No event -/

/-- Settles O22: a cycle that takes no event is the line handshake alone. -/
theorem cycleWithoutEventKeepsTheRecord : Obligations.CycleWithoutEventKeepsTheRecord := by
  refine fun s => ⟨rfl, fun htaken => ?_⟩
  obtain ⟨hdec, hcfg, -⟩ := handshake_rest (pinsNow s).lReady (nextCycle s)
  exact ⟨_, step_of_takenEvent_eq_none htaken, hdec, hcfg, handshake_lines _ (nextCycle s)⟩

end Sys2Proof.Machine
end

section
/-! What the line port carries (R125): bit `i` of the number on `l_bits` is the `i`-th arrived bit. -/
namespace Sys2Proof.Machine

theorem testBit_bitsNumber (bs : List Bool) (i : Nat) :
    (bitsNumber bs).testBit i = bs.getD i false := by
  induction bs generalizing i with
  | nil => simp [bitsNumber]
  | cons b bs ih =>
    have hbit : bitsNumber (b :: bs) = Nat.bit b (bitsNumber bs) := by
      simp [bitsNumber, Nat.bit_val, Nat.add_comm]
    cases i with
    | zero => simp [hbit]
    | succ i => simp [hbit, Nat.testBit_bit_succ, ih]

/-- The low `l_count` bits of `l_bits` are the bits of the line. -/
theorem map_testBit_bitsNumber (bs : List Bool) :
    (List.range bs.length).map (bitsNumber bs).testBit = bs := by
  refine List.ext_getElem (by simp) fun i _ hi => ?_
  simp [testBit_bitsNumber, hi]

/-- A `Data` line on the port, in terms of the bits that were grouped. -/
theorem drive_data_group (p : Channel) (bs : List Bool) :
    drive (.data p (group bs)) = ⟨3, decide (p = .c), bs.length, bitsNumber bs⟩ := by
  rw [drive, group_flatten]

theorem drive_kind_le (l : Line) : (drive l).kind.toNat ≤ 4 := by
  cases l <;> simp [drive]

/-- Settles O45: grouping neither drops nor reorders a bit, so the port has the bits themselves. -/
theorem linePortCarriesTheLine : Obligations.LinePortCarriesTheLine := by
  refine ⟨rfl, rfl, fun _ => rfl, rfl, fun p bs _ => ?_, drive_kind_le⟩
  rw [drive_data_group]
  refine ⟨rfl, decide_eq_true_iff, rfl, fun i hi => ?_, fun i hi => ?_, ?_⟩
  · rw [testBit_bitsNumber, List.getD_eq_getElem _ _ hi]
  · rw [testBit_bitsNumber, List.getD_eq_default _ _ hi]
  · rw [map_testBit_bitsNumber]

end Sys2Proof.Machine
end

section
/-! The millionths of a time (R118): the quotient, or one more, whichever is nearer. -/
namespace Sys2Proof.Machine

/-- Everything `round_half_even` of `a / b` can be: the quotient with at most half of `b` left over, or
one more with at least half left over; an even number when it is exactly half. -/
theorem roundHalfEven_cases (a b : Nat) :
    (roundHalfEven a b = a / b ∧ 2 * (a % b) ≤ b ∨
      roundHalfEven a b = a / b + 1 ∧ b ≤ 2 * (a % b)) ∧
    (2 * (a % b) = b → roundHalfEven a b % 2 = 0) := by
  simp only [roundHalfEven]
  split_ifs <;> omega

/-- The distance is what is left over, or what is missing to the next whole number. -/
theorem roundHalfEven_nearest {a b : Nat} (hb : 0 < b) :
    |(roundHalfEven a b : ℚ) - a / b| ≤ 1 / 2 ∧
    (|(roundHalfEven a b : ℚ) - a / b| = 1 / 2 → roundHalfEven a b % 2 = 0) := by
  have hb' : (0 : ℚ) < b := by exact_mod_cast hb
  have hdiv : (a : ℚ) / b = (a / b : ℕ) + (a % b : ℕ) / b := by
    rw [div_eq_iff hb'.ne', add_mul, div_mul_cancel₀ _ hb'.ne']
    exact_mod_cast (Nat.div_add_mod' a b).symm
  have hfrac : ((a % b : ℕ) : ℚ) / b = 1 / 2 ↔ 2 * (a % b) = b := by
    rw [div_eq_div_iff hb'.ne' two_ne_zero, one_mul, mul_comm]
    exact_mod_cast Iff.rfl
  obtain ⟨⟨hround, hle⟩ | ⟨hround, hle⟩, heven⟩ := roundHalfEven_cases a b
  · have hdist : |(roundHalfEven a b : ℚ) - a / b| = (a % b : ℕ) / b := by
      rw [hround, hdiv, sub_add_cancel_left, abs_neg, abs_of_nonneg (by positivity)]
    rw [hdist]
    refine ⟨?_, fun hhalf => heven (hfrac.mp hhalf)⟩
    rw [div_le_div_iff₀ hb' two_pos, one_mul, mul_comm]
    exact_mod_cast hle
  · have hle_one : ((a % b : ℕ) : ℚ) / b ≤ 1 :=
      div_le_one_of_le₀ (by exact_mod_cast (Nat.mod_lt a hb).le) hb'.le
    have hdist : |(roundHalfEven a b : ℚ) - a / b| = 1 - (a % b : ℕ) / b := by
      rw [hround, hdiv, Nat.cast_add_one, add_sub_add_left_eq_sub,
        abs_of_nonneg (sub_nonneg.mpr hle_one)]
    rw [hdist]
    refine ⟨?_, fun hhalf => heven (hfrac.mp (by linarith))⟩
    have hge : (1 : ℚ) / 2 ≤ (a % b : ℕ) / b := by
      rw [div_le_div_iff₀ two_pos hb', one_mul, mul_comm]
      exact_mod_cast hle
    linarith

/-- The value rounded is that of the numerator's millionths over the denominator. -/
theorem coe_mul_million (v : ℚ≥0) : (v : ℚ) * 1000000 = (v.num * 1000000 : ℕ) / v.den := by
  rw [NNRat.cast_def, Nat.cast_mul, div_mul_eq_mul_div]
  rfl

/-- Settles O56: `micros` rounds the numerator's millionths over the denominator. -/
theorem microsRoundHalfToEven : Obligations.MicrosRoundHalfToEven := by
  intro v
  rw [coe_mul_million]
  exact roundHalfEven_nearest v.den_pos

end Sys2Proof.Machine
end

section
/-! The decimal text of a time (R118): `dec` is `Nat.digits 10` with the most significant digit first,
except that it gives 0 a digit, and `pad6` puts zeros in front of it. -/
namespace Sys2Proof.Machine

/-! ### `dec` -/

/-- With enough digits allowed all of a positive number's are collected, the last one first. -/
theorem digitsBefore_eq {k x : Nat} (hx : x ≠ 0) (hk : x < 10 ^ k) (acc : List Nat) :
    digitsBefore k x acc = (Nat.digits 10 x).reverse ++ acc := by
  induction k generalizing x acc with
  | zero => omega
  | succ k ih =>
    unfold digitsBefore
    split
    next hlt => rw [Nat.digits_of_lt 10 x hx hlt, List.reverse_singleton, List.singleton_append]
    next hge =>
      rw [ih (by omega) (by omega), Nat.digits_def' (by decide) (Nat.pos_of_ne_zero hx),
        List.reverse_cons, List.append_assoc, List.singleton_append]

theorem decDigits_zero : decDigits 0 = [0] := rfl

theorem decDigits_of_ne_zero {x : Nat} (hx : x ≠ 0) : decDigits x = (Nat.digits 10 x).reverse := by
  have hlt : x < 10 ^ (x.log2 + 1) :=
    Nat.lt_log2_self.trans_le (Nat.pow_le_pow_left (by decide) _)
  rw [decDigits, digitsBefore_eq hx hlt, List.append_nil]

theorem decDigits_lt_ten {x d : Nat} (h : d ∈ decDigits x) : d < 10 := by
  obtain rfl | hx := eq_or_ne x 0
  · rw [decDigits_zero, List.mem_singleton] at h
    omega
  · rw [decDigits_of_ne_zero hx, List.mem_reverse] at h
    exact Nat.digits_lt_base (by decide) h

theorem decDigits_ne_nil (x : Nat) : decDigits x ≠ [] := by
  obtain rfl | hx := eq_or_ne x 0
  · exact List.cons_ne_nil _ _
  · rw [decDigits_of_ne_zero hx, Ne, List.reverse_eq_nil_iff]
    exact Nat.digits_ne_nil_iff_ne_zero.mpr hx

/-- No leading zero, but for the number 0. -/
theorem decDigits_eq_of_head_zero {x : Nat} (h : (decDigits x).head? = some 0) :
    decDigits x = [0] := by
  obtain rfl | hx := eq_or_ne x 0
  · rfl
  · rw [decDigits_of_ne_zero hx, List.head?_reverse] at h
    obtain ⟨_, hlast⟩ := List.getLast?_eq_some_iff.mp h
    exact absurd (by simp [hlast]) (Nat.getLast_digit_ne_zero 10 hx)

@[simp] theorem ofDigits_decDigits (x : Nat) : Nat.ofDigits 10 (decDigits x).reverse = x := by
  obtain rfl | hx := eq_or_ne x 0
  · rfl
  · rw [decDigits_of_ne_zero hx, List.reverse_reverse, Nat.ofDigits_digits]

theorem length_decDigits_le {k x : Nat} (hk : 0 < k) (hx : x < 10 ^ k) : (decDigits x).length ≤ k := by
  obtain rfl | hne := eq_or_ne x 0
  · exact hk
  · rw [decDigits_of_ne_zero hne, List.length_reverse]
    exact (Nat.digits_length_le_iff (by decide) x).mpr hx

/-! ### `pad6` -/

theorem length_pad6 {ds : List Nat} (h : ds.length ≤ 6) : (pad6 ds).length = 6 := by
  simp [pad6, h]

/-- Zeros in front do not change the number. -/
@[simp] theorem ofDigits_pad6 (ds : List Nat) :
    Nat.ofDigits 10 (pad6 ds).reverse = Nat.ofDigits 10 ds.reverse := by
  rw [pad6, List.reverse_append, List.reverse_replicate, Nat.ofDigits_append_replicate_zero]

theorem pad6_lt_ten {ds : List Nat} (h : ∀ d ∈ ds, d < 10) : ∀ d ∈ pad6 ds, d < 10 := by
  intro d hd
  obtain hzero | hd := List.mem_append.mp hd
  · rw [List.eq_of_mem_replicate hzero]
    decide
  · exact h d hd

/-- Settles O57: whole seconds and millionths are quotient and remainder, each in decimal. -/
theorem defaultTimeTextIsSixDecimals : Obligations.DefaultTimeTextIsSixDecimals := by
  intro v
  have hlt : micros v % 1000000 < 10 ^ 6 := Nat.mod_lt _ (by decide)
  refine ⟨decDigits (micros v / 1000000), pad6 (decDigits (micros v % 1000000)), rfl, fun d hd => ?_,
    decDigits_ne_nil _, decDigits_eq_of_head_zero,
    length_pad6 (length_decDigits_le (by decide) hlt), ?_⟩
  · obtain hd | hd := List.mem_append.mp hd
    · exact decDigits_lt_ten hd
    · exact pad6_lt_ten (fun _ => decDigits_lt_ten) d hd
  · rw [ofDigits_pad6, ofDigits_decDigits, ofDigits_decDigits, Nat.div_add_mod']

end Sys2Proof.Machine
end

section
/-! The bytes of the line records (R117, R119 to R123). -/
namespace Sys2Proof.Machine

/-! ### Printable text -/

/-- Printable ASCII characters only (R117). -/
abbrev Printable (t : Text) : Prop := ∀ b ∈ t, 0x20 ≤ b.toNat ∧ b.toNat ≤ 0x7E

theorem Printable.append {t u : Text} (ht : Printable t) (hu : Printable u) : Printable (t ++ u) :=
  List.forall_mem_append.mpr ⟨ht, hu⟩

/-- The digits of a number are the characters from `0` to `9`. -/
theorem printable_digitText {ds : List Nat} (h : ∀ d ∈ ds, d < 10) : Printable (digitText ds) := by
  intro b hb
  obtain ⟨d, hd, rfl⟩ := List.mem_map.mp hb
  have hlt := h d hd
  rw [BitVec.toNat_ofNat]
  omega

theorem printable_fmt6Default (v : ℚ≥0) : Printable (fmt6Default v) := by
  obtain ⟨ip, fp, htext, hdigit, -⟩ := defaultTimeTextIsSixDecimals v
  obtain ⟨hip, hfp⟩ := List.forall_mem_append.mp hdigit
  rw [htext]
  exact ((printable_digitText hip).append (by decide)).append (printable_digitText hfp)

/-- Fixed characters before and behind a time. -/
theorem printable_around_time {t u : Text} (ht : Printable t) (v : ℚ≥0) (hu : Printable u) :
    Printable (t ++ fmt6Default v ++ u) :=
  (ht.append (printable_fmt6Default v)).append hu

theorem printable_channelText (p : Channel) : Printable (channelText p) := by
  cases p <;> decide

theorem printable_groupText (g : List Bool) : Printable (groupText g) := by
  intro b hb
  obtain ⟨_ | _, -, rfl⟩ := List.mem_map.mp hb
  · decide
  · decide

/-- A space before each group of a `Data` line. -/
theorem printable_groups (gs : List (List Bool)) :
    Printable (gs.flatMap fun g => ascii [' '] ++ groupText g) := by
  intro b hb
  obtain ⟨g, -, hbg⟩ := List.mem_flatMap.mp hb
  have hspace : Printable (ascii [' ']) := by decide
  exact hspace.append (printable_groupText g) b hbg

/-- Settles O58: the text before the `LF` is made of printable pieces. -/
theorem everyLineIsPrintableThenLineFeed : Obligations.EveryLineIsPrintableThenLineFeed := by
  intro period l
  cases l with
  | banner => exact ⟨_, rfl, printable_around_time (by decide) period (by decide)⟩
  | start k => exact ⟨_, rfl, printable_around_time (by decide) (k * period) (by decide)⟩
  | data p gs => exact ⟨_, rfl, (printable_channelText p).append (printable_groups gs)⟩
  | blank | final => exact ⟨[], rfl, nofun⟩

/-! ### `Data` lines have a group -/

section
variable {p : Channel} {gs : List (List Bool)} {w : Work}

/-- The line of a flush carries held bits, so it has a group. -/
theorem data_mem_flush_out (h : .data p gs ∈ (flush w).out) : .data p gs ∈ w.out ∨ gs ≠ [] := by
  by_cases hbits : w.dec.bits = []
  · exact .inl (flush_of_bits_nil hbits ▸ h)
  · rw [flush_out_of_bits_ne_nil hbits, List.mem_append, List.mem_singleton] at h
    refine h.imp_right fun hline => ?_
    cases hline
    exact group_ne_nil hbits

theorem data_mem_ensureCommand_out (h : .data p gs ∈ (ensureCommand w).out) :
    .data p gs ∈ w.out := by
  unfold ensureCommand at h
  split at h
  · simpa [(startCommand_spec w).2] using h
  · exact h

theorem data_mem_ensureChannel_out {sync : Bool} (h : .data p gs ∈ (ensureChannel sync w).out) :
    .data p gs ∈ w.out ∨ gs ≠ [] := by
  unfold ensureChannel at h
  split at h
  · exact data_mem_flush_out h
  · exact .inl h

theorem data_mem_sampleStep_out {cfg : Config} {smp : Nat}
    (h : .data p gs ∈ (sampleStep cfg smp w).out) : .data p gs ∈ w.out ∨ gs ≠ [] := by
  cases hpwo : (extract smp).pwo
  case false =>
    rw [sampleStep_of_pwo_low_eq hpwo, finishSample_out, setInCommand_out] at h
    split at h
    · exact data_mem_flush_out h
    · exact .inl h
  cases hacc : accepts w.dec smp
  case false =>
    rw [sampleStep_of_pwo_high hpwo hacc, finishSample_out] at h
    exact .inl h
  case true =>
    rw [sampleStep_of_accepts hacc, acceptBit_out] at h
    exact (data_mem_ensureChannel_out h).imp_left data_mem_ensureCommand_out

/-- No step emits a `Data` line without a group, from whatever state. -/
theorem groups_ne_nil_of_mem_eventStep_out {cfg : Config} {d : Decoder} {e : Event}
    (h : .data p gs ∈ (eventStep cfg d e).out) : gs ≠ [] := by
  cases e with
  | reset => simp [eventStep, hostReset] at h
  | interrupt =>
    simp only [eventStep] at h
    split at h <;> simp [hostInterrupt, haltDiscarding] at h
  | sourceEnd =>
    simp only [eventStep] at h
    split at h <;> simp [hostSourceEnd, haltDiscarding] at h
  | sample smp =>
    by_cases hrun : d.run = .run
    · rw [eventStep_sample hrun] at h
      exact (data_mem_sampleStep_out h).resolve_left List.not_mem_nil
    · simp [eventStep_sample_of_halted hrun] at h

end

/-! ### The bytes -/

theorem channelText_eq (p : Channel) : channelText p = [if p = .c then 0x43 else 0x44] := by
  cases p <;> rfl

/-- Settles O59: each record is its fixed characters around the times and groups it carries. -/
theorem renderedRecordsHaveTheGivenBytes : Obligations.RenderedRecordsHaveTheGivenBytes := by
  intro fmt6 period
  refine ⟨?_, rfl, fun k => ?_, fun p gs => ?_, rfl,
    fun _ _ _ _ _ => groups_ne_nil_of_mem_eventStep_out⟩
  · exact List.append_assoc ..
  · exact List.append_assoc ..
  · rw [render, channelText_eq, List.flatMap_def]
    rfl

end Sys2Proof.Machine
end

section
/-! ACC_OVERFLOW (R134): a SAMPLE step in `RUN` either is BIT_C or BIT_D, and then only accepts its bit,
or stays in `RUN`. -/
namespace Sys2Proof.Machine

/-- The sample selects BIT_C or BIT_D: one more bit of the command's own channel (R66). -/
abbrev SelectsBit (d : Decoder) (smp : Nat) : Prop :=
  (∃ b, decodeOp d.view smp = .bitC b) ∨ (∃ b, decodeOp d.view smp = .bitD b)

/-- The first bit of a channel has room, so accepting it stays in `RUN`. -/
theorem acceptBit_enterChannel_stays {cfg : Config} (hwf : cfg.wf = true) {w : Work}
    (hrun : w.dec.run = .run) (sync b : Bool) :
    (acceptBit cfg true b (enterChannel sync w)).dec.run = .run := by
  rw [(acceptBit_enterChannel hwf sync b w).1]
  exact hrun

section
variable {cfg : Config} {d : Decoder}

/-- A SAMPLE step in `RUN`, test by test of `decode_op`: BIT_C and BIT_D accept a bit and do nothing
else, and every other operation stays in `RUN`. -/
theorem eventStep_sample_cases (hwf : cfg.wf = true) (hrun : d.run = .run) (smp : Nat) :
    SelectsBit d smp ∧
      (∃ b, eventStep cfg d (.sample smp) = acceptBit cfg true b (beginWork (countSample d))) ∨
    ¬ SelectsBit d smp ∧ (eventStep cfg d (.sample smp)).dec.run = .run := by
  rw [eventStep_sample hrun]
  cases hpwo : (extract smp).pwo
  case false =>
    rw [sampleStep_of_pwo_low_eq hpwo, SelectsBit, decodeOp_of_pwo_low hpwo]
    cases hcmd : d.inCommand <;> simp [hcmd, hrun]
  cases hacc : accepts d smp
  case false =>
    rw [sampleStep_of_pwo_high hpwo hacc, SelectsBit, decodeOp_of_pwo_high hpwo hacc]
    cases (extract smp).p2 <;> simp [hrun]
  cases hcmd : d.inCommand
  case false =>
    rw [sampleStep_of_start hacc hcmd, SelectsBit, decodeOp_of_start hacc hcmd]
    refine .inr ⟨?_, acceptBit_enterChannel_stays hwf hrun _ _⟩
    cases (extract smp).sync <;> simp
  by_cases hsame : d.lastSync = tri (extract smp).sync
  · rw [sampleStep_of_same_channel hacc hcmd hsame, SelectsBit,
      decodeOp_of_same_channel hacc hcmd hsame]
    refine .inl ⟨?_, _, rfl⟩
    cases (extract smp).sync <;> simp
  · rw [sampleStep_of_switch hacc hcmd hsame, SelectsBit, decodeOp_of_switch hacc hcmd hsame]
    refine .inr ⟨?_, acceptBit_enterChannel_stays hwf hrun _ _⟩
    cases (extract smp).sync <;> simp

end

/-- Settles O17: a bit of the command's own channel faults on a full accumulator, and then the halt
ignores every event but RESET. -/
theorem overflowOnlyOnFullAccumulator : Obligations.OverflowOnlyOnFullAccumulator := by
  intro cfg d smp hwf hrun
  dsimp only
  rcases eventStep_sample_cases hwf hrun smp with ⟨hbit, b, hstep⟩ | ⟨hother, hstays⟩
  · rw [hstep, ← full_eq_true]
    cases hfull : full cfg d.bits
    case false =>
      have hdec := acceptBit_dec_of_room (w := beginWork (countSample d)) hfull true b
      simp [hdec, hrun]
    case true =>
      have hdec := acceptBit_dec_of_full (w := beginWork (countSample d)) hfull true b
      rw [hdec]
      exact ⟨⟨fun _ => ⟨hbit, rfl⟩, fun _ => rfl⟩, fun _ => ⟨acceptBit_out .., _, rfl⟩,
        fun _ => ⟨rfl, fun e he => eventStep_of_halted (by simp) he⟩, fun h => absurd rfl h⟩
  · have hnone : (eventStep cfg d (.sample smp)).dec.run ≠ .haltFault := by simp [hstays]
    exact ⟨⟨fun h => absurd h hnone, fun h => absurd h.1 hother⟩, fun h => absurd h hnone,
      fun h => absurd h hnone, fun _ => hstays⟩

end Sys2Proof.Machine
end

section
/-! The halt states (R129, R142): without `rst` a halted block takes no event. -/
namespace Sys2Proof.Machine

/-- A halted block whose feed raises no `rst` takes no event on the coming cycle. -/
theorem takenEvent_of_halted {s : State} (hhalt : s.dec.run ≠ .run) (h : noReset s) :
    takenEvent s = none := by
  rw [Option.eq_none_iff_forall_ne_some]
  intro e htaken
  rcases takenEvent_cases htaken with rfl | ⟨hrun, -⟩
  · exact takenEvent_ne_reset h htaken
  · exact hhalt hrun

/-- Nor on any later one, since a cycle without an event keeps the record. -/
theorem eventsTaken_of_halted {s : State} (hhalt : s.dec.run ≠ .run) (h : noReset s) (k : Nat) :
    eventsTaken k s = [] := by
  induction k generalizing s with
  | zero => rfl
  | succ k ih =>
    have hnone := takenEvent_of_halted hhalt h
    obtain ⟨t, hstep, -, hreset, hdec, -⟩ := step_refines s
    rw [hnone] at hdec
    simp only [eventsTaken, hstep, hnone]
    exact ih (hdec ▸ hhalt) (hreset h)

/-- Settles O27: no event is taken, and the cycles are the abstract machine on the events taken. -/
theorem onlyResetLeavesAHalt : Obligations.OnlyResetLeavesAHalt := by
  intro s k hhalt h
  have hnone := eventsTaken_of_halted hhalt h k
  obtain ⟨hdec, hlines⟩ := cyclesRefineTheAbstractMachine s k
  rw [hnone] at hdec hlines
  exact ⟨hdec, (hlines h).trans (List.append_nil _), hnone⟩

end Sys2Proof.Machine
end

section
/-! Runs (R143): the first run of a list of events ends at the first halt or the next RESET, and the run
a state of the cycle level is in is the last of the events taken. -/
namespace Sys2Proof.Machine

/-! ### The first run of a list of events -/

/-- A run with more events, wherever among them it ends. -/
def continued (cfg : Config) (w : Work) (es : List Event) : Work :=
  { dec := (runEvents cfg w.dec es).dec, out := w.out ++ (runEvents cfg w.dec es).out }

@[simp] theorem continued_nil (cfg : Config) (w : Work) : continued cfg w [] = w := by
  simp [continued]

section
variable {cfg : Config} {w : Work}

/-- A run takes every event but RESET as the abstract machine does, which ignores it in a halt too. -/
theorem runOn_eq_continued {e : Event} (he : e ≠ .reset) : runOn cfg w e = continued cfg w [e] := by
  by_cases hrun : w.dec.run = .run
  · simp [runOn, continued, hrun]
  · simp [runOn, continued, hrun, eventStep_of_halted hrun he]

theorem continued_runOn {e : Event} (he : e ≠ .reset) (es : List Event) :
    continued cfg (runOn cfg w e) es = continued cfg w (e :: es) := by
  simp [runOn_eq_continued he, continued]

/-- A run that has ended stays the first of the runs, whatever events follow. -/
theorem head_runsFrom_of_halted (hhalt : w.dec.run ≠ .run) (es : List Event) :
    (runsFrom cfg w es).head? = some w := by
  induction es with
  | nil => rfl
  | cons e es ih =>
    by_cases he : e = .reset
    · rw [he, runsFrom_reset, List.head?_cons]
    · rw [runsFrom_cons he, (runOn_spec cfg w e).2 hhalt, ih]

/-- The first of the runs takes the events up to the first halt or the next RESET. -/
theorem head_runsFrom (cfg : Config) (w : Work) (es : List Event) : ∃ done rest,
    (runsFrom cfg w es).head? = some (continued cfg w done) ∧
    es = done ++ rest ∧ Event.reset ∉ done ∧
    (∀ k, k < done.length → (runEvents cfg w.dec (done.take k)).dec.run = .run) ∧
    (∀ e, rest.head? = some e → (continued cfg w done).dec.run ≠ .run ∨ e = .reset) := by
  induction es generalizing w with
  | nil => exact ⟨[], [], by simp [runsFrom]⟩
  | cons e es ih =>
    by_cases he : e = .reset
    · exact ⟨[], e :: es, by simp [he]⟩
    by_cases hrun : w.dec.run = .run
    case neg => exact ⟨[], e :: es, by simp [head_runsFrom_of_halted hrun, hrun]⟩
    obtain ⟨done, rest, hhead, hes, hreset, hbefore, hafter⟩ := ih (runOn cfg w e)
    rw [continued_runOn he] at hhead hafter
    refine ⟨e :: done, rest, by rw [runsFrom_cons he, hhead], by rw [hes, List.cons_append],
      by simp [hreset, Ne.symm he], fun k hk => ?_, hafter⟩
    cases k with
    | zero => exact hrun
    | succ k =>
      rw [runOn_eq_continued he] at hbefore
      exact hbefore k (Nat.lt_of_succ_lt_succ hk)

end

/-! ### Only RESET emits a `Banner` -/

section
variable {w : Work}

@[simp] theorem banner_mem_flush_out : .banner ∈ (flush w).out ↔ .banner ∈ w.out := by
  rw [(flush_spec w).2]
  split <;> simp

@[simp] theorem banner_mem_ensureCommand_out : .banner ∈ (ensureCommand w).out ↔ .banner ∈ w.out := by
  unfold ensureCommand
  split
  · simp [(startCommand_spec w).2]
  · rfl

@[simp] theorem banner_mem_ensureChannel_out {sync : Bool} :
    .banner ∈ (ensureChannel sync w).out ↔ .banner ∈ w.out := by
  unfold ensureChannel
  split
  · exact banner_mem_flush_out
  · rfl

theorem banner_mem_sampleStep_out {cfg : Config} {smp : Nat} :
    .banner ∈ (sampleStep cfg smp w).out ↔ .banner ∈ w.out := by
  cases hpwo : (extract smp).pwo
  case false =>
    rw [sampleStep_of_pwo_low_eq hpwo, finishSample_out, setInCommand_out]
    split
    · exact banner_mem_flush_out
    · rfl
  cases hacc : accepts w.dec smp
  case false => rw [sampleStep_of_pwo_high hpwo hacc, finishSample_out]
  case true => simp [sampleStep_of_accepts hacc]

/-- No event but RESET emits a `Banner` (R126). -/
theorem banner_not_mem_eventStep_out {e : Event} (he : e ≠ .reset) (cfg : Config) (d : Decoder) :
    .banner ∉ (eventStep cfg d e).out := by
  by_cases hrun : d.run = .run
  case neg => simp [eventStep_of_halted hrun he]
  cases e with
  | reset => exact absurd rfl he
  | interrupt => simp [eventStep, hrun, hostInterrupt, haltDiscarding]
  | sourceEnd => simp [eventStep, hrun, hostSourceEnd, haltDiscarding]
  | sample smp => simp [eventStep_sample hrun, banner_mem_sampleStep_out]

end

/-! ### The run of a cycle-level state -/

section
variable {s : State}

/-- RESET begins a run that holds only the `Banner`. -/
theorem currentRun_takeEvent_reset (s : State) : currentRun (takeEvent .reset s) = hostReset :=
  congrArg (Work.mk _) (linesSinceReset_banner s.delivered)

/-- Any other event, taken with an empty queue, belongs to the present run. -/
theorem currentRun_takeEvent (hrun : s.dec.run = .run) (hq : s.outq = []) {e : Event}
    (he : e ≠ .reset) : currentRun (takeEvent e s) = runOn s.cfg (currentRun s) e := by
  have hlines := linesSinceReset_append (banner_not_mem_eventStep_out he s.cfg s.dec) s.delivered
  simp [takeEvent_eq_absorb hq, currentRun, runOn, hrun, hq, hlines]

theorem currentRun_handshake (r : Bool) (s : State) : currentRun (handshake r s) = currentRun s := by
  rw [currentRun, handshake_lines, (handshake_rest r s).1, currentRun]

theorem runsFrom_ne_nil (cfg : Config) (w : Work) (es : List Event) : runsFrom cfg w es ≠ [] := by
  induction es generalizing w with
  | nil => exact List.cons_ne_nil _ _
  | cons e es ih =>
    by_cases he : e = .reset
    · rw [he, runsFrom_reset]
      exact List.cons_ne_nil _ _
    · rw [runsFrom_cons he]
      exact ih _

/-- A cycle leads to the state of the run that the event it takes, if any, continues or begins. -/
theorem step_currentRun (s : State) : ∃ t, step s = .next t ∧ t.cfg = s.cfg ∧
    ∀ es, (runsFrom s.cfg (currentRun s) ((takenEvent s).toList ++ es)).getLast? =
      (runsFrom s.cfg (currentRun t) es).getLast? := by
  cases htaken : takenEvent s with
  | none =>
    refine ⟨_, step_of_takenEvent_eq_none htaken, (handshake_rest _ _).2.1, fun es => ?_⟩
    rw [currentRun_handshake]
    rfl
  | some e =>
    refine ⟨_, step_of_takenEvent htaken, rfl, fun es => ?_⟩
    rw [Option.toList_some, List.singleton_append]
    by_cases he : e = .reset
    · rw [he, runsFrom_reset, currentRun_takeEvent_reset,
        List.getLast?_cons_of_ne_nil (runsFrom_ne_nil _ _ _)]
    · obtain ⟨hrun, hq⟩ := (takenEvent_cases htaken).resolve_left he
      rw [runsFrom_cons he, currentRun_takeEvent (s := nextCycle s) hrun hq he]
      rfl

theorem getLast_runsFrom_eventsTaken (s : State) (k : Nat) :
    (runsFrom s.cfg (currentRun s) (eventsTaken k s)).getLast? = some (currentRun (runCycles k s)) := by
  induction k generalizing s with
  | zero => rfl
  | succ k ih =>
    obtain ⟨t, hstep, hcfg, hlast⟩ := step_currentRun s
    simp only [eventsTaken, runCycles, hstep]
    rw [hlast, ← hcfg, ih]

end

theorem runEnd_eq_finished_iff (r : RunState) :
    runEnd r = .finished ↔ r = .haltOk ∨ r = .haltErr := by
  cases r <;> decide

theorem runEnd_eq_unfinished_iff (r : RunState) : runEnd r = .unfinished ↔ r = .run := by
  cases r <;> decide

/-- Settles O60: the first run after RESET begins with the initial record and the `Banner`, the yield is
read off the run's lines and its `run` value, and the last clause is an induction on the cycles. -/
theorem runEndsAtItsFirstHalt : Obligations.RunEndsAtItsFirstHalt := by
  refine ⟨fun cfg es => ?_, fun fmt6 period r => ?_, getLast_runsFrom_eventsTaken⟩
  · obtain ⟨done, rest, hhead, hes, hreset, hbefore, hafter⟩ := head_runsFrom cfg hostReset es
    exact ⟨_, done, rest, hhead, hes, hreset, rfl, hbefore, hafter⟩
  · exact ⟨List.flatMap_def .., rfl, decide_eq_true_iff, decide_eq_true_iff, decide_eq_true_iff,
      runEnd_eq_finished_iff _, runEnd_eq_unfinished_iff _⟩

end Sys2Proof.Machine
end

section
/-! A held strobe (R156, R157, R159): with `last_p2 = T` no sample is a strobe edge, and a sample with
`p2` true keeps it so. -/
namespace Sys2Proof.Machine

section
variable {cfg : Config} {smp : Nat}

/-- After a sample with `p2` true no sample is a strobe edge (R77). -/
theorem accepts_of_lastP2_t {d : Decoder} (h : d.lastP2 = .t) (smp : Nat) :
    accepts d smp = false := by
  simp [accepts, edge, h]

/-- A sample that accepts no bit records its `p2`, whatever `pwo` is (R81). -/
theorem sampleStep_lastP2_of_not_accepts {w : Work} (hacc : accepts w.dec smp = false) :
    (sampleStep cfg smp w).dec.lastP2 = tri (extract smp).p2 := by
  cases hpwo : (extract smp).pwo
  case true => rw [sampleStep_of_pwo_high hpwo hacc, finishSample_lastP2]
  case false => rw [sampleStep_of_pwo_low_eq hpwo, finishSample_lastP2]

/-- A further sample with `p2` true keeps `last_p2 = T`, since a halted block keeps its record. -/
theorem eventStep_sample_lastP2_t {d : Decoder} (h : d.lastP2 = .t) (hp2 : smp.testBit 4 = true) :
    (eventStep cfg d (.sample smp)).dec.lastP2 = .t := by
  by_cases hrun : d.run = .run
  · rw [eventStep_sample hrun, sampleStep_lastP2_of_not_accepts (accepts_of_lastP2_t h smp), tri_eq_t]
    exact hp2
  · rw [eventStep_sample_of_halted hrun]
    exact h

end

/-- Settles O40, by induction on the samples: none is accepted, and `last_p2` stays `T`. -/
theorem heldStrobeAcceptsNoFurtherBit : Obligations.HeldStrobeAcceptsNoFurtherBit := by
  intro cfg d smps hlast hheld
  induction smps generalizing d with
  | nil => exact ⟨nofun, rfl⟩
  | cons smp smps ih =>
    obtain ⟨hp2, hrest⟩ := List.forall_mem_cons.mp hheld
    have hacc : accepts d smp = false := accepts_of_lastP2_t hlast smp
    obtain ⟨ihacc, ihbits⟩ := ih _ (eventStep_sample_lastP2_t hlast hp2) hrest
    exact ⟨List.forall_mem_cons.mpr ⟨hacc, ihacc⟩,
      by simp [acceptedBits, acceptedBit, hacc, ihbits]⟩

end Sys2Proof.Machine
end

section
/-! Runs of cycles from RESET (R152, R154) and of a queue that drains (R166): a held `rst` leaves one
`Banner`, queued lines leave one per edge, and no event is taken before the first has left. -/
namespace Sys2Proof.Machine

theorem runCycles_succ_of_step {s t : State} (h : step s = .next t) (k : Nat) :
    runCycles (k + 1) s = runCycles k t := by
  simp only [runCycles, h]

/-! ### Held reset -/

/-- An edge with `rst = 1` writes the reset values, whatever the state (R151). -/
theorem step_of_rst {s : State} {p : Pins} {rest : List Pins} (hfeed : s.feed = p :: rest)
    (hrst : p.rst = true) :
    step s = .next { s with dec := Decoder.initial, outq := [.banner], feed := rest } := by
  obtain ⟨-, hcycle, -⟩ := resetReinitialisesEveryField s
  exact hcycle p rest hfeed hrst

/-- However many edges `rst` is held, they leave the reset values (R152). -/
theorem runCycles_of_held_rst {s : State} {k : Nat} (hk : k < s.feed.length)
    (hheld : ∀ p ∈ s.feed.take (k + 1), p.rst = true) :
    runCycles (k + 1) s =
      { s with dec := Decoder.initial, outq := [.banner], feed := s.feed.drop (k + 1) } := by
  induction k generalizing s with
  | zero =>
    obtain ⟨p, rest, hfeed⟩ := List.exists_cons_of_length_pos hk
    rw [runCycles_succ_of_step (step_of_rst hfeed (hheld p (by simp [hfeed]))), hfeed]
    rfl
  | succ k ih =>
    obtain ⟨p, rest, hfeed⟩ := List.exists_cons_of_length_pos (Nat.zero_lt_of_lt hk)
    rw [hfeed, List.take_succ_cons] at hheld
    obtain ⟨hrst, hrest⟩ := List.forall_mem_cons.mp hheld
    have hlen : k < rest.length := by simpa [hfeed] using hk
    rw [runCycles_succ_of_step (step_of_rst hfeed hrst), ih hlen hrest, hfeed, List.drop_succ_cons]

/-! ### A queue that drains -/

/-- With `rst = 0` a ready sink takes the head of the queue, and nothing else changes (R57). -/
theorem step_of_ready_sink {s : State} {p : Pins} {rest : List Pins} {l : Line} {ls : List Line}
    (hfeed : s.feed = p :: rest) (hq : s.outq = l :: ls) (hp : p.rst = false ∧ p.lReady = true) :
    step s = .next { s with feed := rest, outq := ls, delivered := s.delivered ++ [l] } := by
  obtain ⟨-, -, -, -, htake, -⟩ := handshakeMovesTheHeadOrNothing s p rest l ls hfeed hq hp.1
  exact htake hp.2

/-- Settles O3: once `rst` is low the sink takes the one line of the queue. -/
theorem heldResetQueuesOneBanner : Obligations.HeldResetQueuesOneBanner := by
  intro s k hk hheld
  exact ⟨runCycles_of_held_rst hk hheld, rfl, rfl,
    fun p rest hfeed hrst hl => step_of_ready_sink hfeed rfl ⟨hrst, hl⟩⟩

/-- Settles O26, by induction on the number of lines that leave. -/
theorem queuedLinesLeaveOnePerEdge : Obligations.QueuedLinesLeaveOnePerEdge := by
  intro s j hq hfeed hready
  induction j generalizing s with
  | zero => simp [runCycles]
  | succ j ih =>
    obtain ⟨l, ls, hls⟩ := List.exists_cons_of_length_pos (Nat.zero_lt_of_lt hq)
    obtain ⟨p, rest, hrest⟩ := List.exists_cons_of_length_pos (Nat.zero_lt_of_lt hfeed)
    rw [hls, List.length_cons, Nat.succ_le_succ_iff] at hq
    rw [hrest, List.length_cons, Nat.succ_le_succ_iff] at hfeed
    rw [hrest, List.take_succ_cons] at hready
    obtain ⟨hp, hready⟩ := List.forall_mem_cons.mp hready
    rw [runCycles_succ_of_step (step_of_ready_sink hrest hls hp), ih _ hq hfeed hready]
    simp [hls, hrest]

/-! ### The first line -/

/-- The sink keeps the lines it has taken. -/
theorem delivered_prefix_handshake (r : Bool) (s : State) :
    s.delivered <+: (handshake r s).delivered := by
  unfold handshake
  split
  next => exact List.prefix_rfl
  next =>
    split
    · exact List.prefix_append _ _
    · exact List.prefix_rfl

theorem delivered_prefix_runCycles (k : Nat) (s : State) :
    s.delivered <+: (runCycles k s).delivered := by
  induction k generalizing s with
  | zero => exact List.prefix_rfl
  | succ k ih =>
    cases htaken : takenEvent s with
    | some e =>
      rw [runCycles_succ_of_step (step_of_takenEvent htaken)]
      exact ih (takeEvent e (nextCycle s))
    | none =>
      rw [runCycles_succ_of_step (step_of_takenEvent_eq_none htaken)]
      exact (delivered_prefix_handshake _ (nextCycle s)).trans (ih _)

/-- Without `rst` no event is taken while a line is queued (R65). -/
theorem takenEvent_of_outq_ne_nil {s : State} (hq : s.outq ≠ []) (h : noReset s) :
    takenEvent s = none := by
  rw [Option.eq_none_iff_forall_ne_some]
  intro e htaken
  rcases takenEvent_cases htaken with rfl | ⟨-, hnil⟩
  · exact takenEvent_ne_reset h htaken
  · exact hq hnil

/-- Once a line has been emitted, no event is taken before the sink has taken a line: as long as it has
none, that line is still queued. -/
theorem eventsTaken_eq_nil_of_delivered_eq_nil {s : State} {k : Nat} (hne : emitted s ≠ [])
    (h : noReset s) (hnil : (runCycles k s).delivered = []) : eventsTaken k s = [] := by
  induction k generalizing s with
  | zero => rfl
  | succ k ih =>
    have hd : s.delivered = [] := List.prefix_nil.mp (hnil ▸ delivered_prefix_runCycles (k + 1) s)
    have hq : s.outq ≠ [] := by simpa [emitted, hd] using hne
    have hnone : takenEvent s = none := takenEvent_of_outq_ne_nil hq h
    obtain ⟨t, hstep, -, hreset, -, hlines⟩ := step_refines s
    have hsame : emitted t = emitted s := by simpa [hnone] using hlines h
    rw [runCycles_succ_of_step hstep] at hnil
    simp only [eventsTaken, hstep, hnone]
    exact ih (hsame ▸ hne) (hreset h) hnil

/-- Without `rst` on the feed no cycle takes a RESET. -/
theorem reset_not_mem_eventsTaken {s : State} (h : noReset s) (k : Nat) :
    Event.reset ∉ eventsTaken k s := by
  induction k generalizing s with
  | zero => exact List.not_mem_nil
  | succ k ih =>
    obtain ⟨t, hstep, -, hreset, -⟩ := step_refines s
    simp only [eventsTaken, hstep, List.mem_append, Option.mem_toList, not_or]
    exact ⟨takenEvent_ne_reset h, ih (hreset h)⟩

/-- Only a RESET among the events gives a `Banner` (R126). -/
theorem banner_not_mem_runEvents_out {es : List Event} (h : .reset ∉ es) (cfg : Config)
    (d : Decoder) : .banner ∉ (runEvents cfg d es).out := by
  induction es generalizing d with
  | nil => exact List.not_mem_nil
  | cons e es ih =>
    obtain ⟨he, hes⟩ := List.ne_and_not_mem_of_not_mem_cons h
    rw [runEvents_cons_out, List.mem_append, not_or]
    exact ⟨banner_not_mem_eventStep_out (Ne.symm he) cfg d, ih hes _⟩

/-- Settles O4: the lines are the queued `Banner` and then those of the abstract machine on the events
taken, none of them a RESET. -/
theorem bannerComesFirstAndOnce : Obligations.BannerComesFirstAndOnce := by
  intro cfg feed k
  dsimp only
  intro hreset _
  obtain ⟨-, hlines⟩ := cyclesRefineTheAbstractMachine { State.reset with cfg := cfg, feed := feed } k
  exact ⟨⟨_, hlines hreset, banner_not_mem_runEvents_out (reset_not_mem_eventsTaken hreset k) _ _⟩,
    eventsTaken_eq_nil_of_delivered_eq_nil (List.cons_ne_nil _ _) hreset⟩

end Sys2Proof.Machine
end
